-- ==== Sys2Proof/Word.lean ====
section
/-! DEFINITION. The words of the encoder input core: the 2-bit quadrature code and the 2-bit output code
(00_scope R14, 20_memory R34). A one-bit level of a wire is a Bool, true for 1. A timestamp is an unsigned number of
TIME_W bits, a parameter of the instance (R8): it is a plain Nat whose bound `Instr.wf` and the invariant of Safety.lean
keep (log 9). -/

namespace Sys2Proof

/-- A quadrature code `{A, B}`: bit 1 is channel A, bit 0 channel B (R34). -/
abbrev Code := BitVec 2

/-- A 2-bit signed output code: `0b00` = 0, `0b01` = +1, `0b11` = -1 (R51, R52). -/
abbrev Code2 := BitVec 2

end Sys2Proof
end

