-- ==== Sys2Proof/Config.lean ====
section
/-! DEFINITION. The elaboration parameters of an instance (00_scope R6 to R12), their legal ranges and the refusal of
illegal ones (93_implementation_defined U2, U3). No free value exists on this hardware. -/

namespace Sys2Proof

/-- The seven parameters as someone asks for them, legal or not. `tickUnitNs` is TICK_UNIT in nanoseconds (log 12). -/
structure Params where
  threshold : Int
  accW : Nat
  timeW : Nat
  tickUnitNs : Nat
  debounceTicks : Nat
  activeLevel : Nat
  hasButton : Bool
  deriving DecidableEq, Repr

/-- Why an instance is refused at elaboration (U2, D22). -/
inductive ParamError where
  /-- `THRESHOLD < 1` (R6). -/
  | threshold
  /-- `2^(ACC_W-1)-1 < THRESHOLD` (R7). -/
  | accW
  /-- `TIME_W < 1` (R8). -/
  | timeW
  /-- `DEBOUNCE_TICKS >= 2^TIME_W` (R10). -/
  | debounceTicks
  /-- `ACTIVE_LEVEL` is neither 0 nor 1 (R11). -/
  | activeLevel
  deriving DecidableEq, Repr

/-- The parameters of an instance that exists: the record carries the proofs of the constraints (U2), so an illegal
instance cannot be written down. -/
structure Config where
  /-- THRESHOLD, steps per detent (R6). -/
  threshold : Nat
  /-- ACC_W, bits of `accumulated_steps` (R7). -/
  accW : Nat
  /-- TIME_W, bits of a timestamp (R8). -/
  timeW : Nat
  /-- TICK_UNIT in nanoseconds; no rule depends on it (R9). -/
  tickUnitNs : Nat
  /-- DEBOUNCE_TICKS, the debounce window in timestamp counts (R10). -/
  debounceTicks : Nat
  /-- ACTIVE_LEVEL, the raw level that means pressed (R11). -/
  activeLevel : Bool
  /-- HAS_BUTTON (R12). -/
  hasButton : Bool
  threshold_pos : 1 ≤ threshold
  threshold_fits : threshold ≤ 2 ^ (accW - 1) - 1
  timeW_pos : 1 ≤ timeW
  debounce_fits : debounceTicks < 2 ^ timeW
  deriving DecidableEq, Repr

/-- Elaboration: the instance these parameters describe, or the name of the first constraint they break (U2). -/
def Params.elaborate (p : Params) : Except ParamError Config :=
  if h1 : 1 ≤ p.threshold.toNat then
    if h2 : p.threshold.toNat ≤ 2 ^ (p.accW - 1) - 1 then
      if h3 : 1 ≤ p.timeW then
        if h4 : p.debounceTicks < 2 ^ p.timeW then
          if p.activeLevel ≤ 1 then
            .ok
              { threshold := p.threshold.toNat, accW := p.accW, timeW := p.timeW, tickUnitNs := p.tickUnitNs,
                debounceTicks := p.debounceTicks, activeLevel := p.activeLevel == 1, hasButton := p.hasButton,
                threshold_pos := h1, threshold_fits := h2, timeW_pos := h3, debounce_fits := h4 }
          else .error .activeLevel
        else .error .debounceTicks
      else .error .timeW
    else .error .accW
  else .error .threshold

/-- The reference values of the summary table of 00_scope section 3. -/
def Params.reference : Params :=
  { threshold := 4, accW := 8, timeW := 32, tickUnitNs := 1000, debounceTicks := 20000, activeLevel := 0,
    hasButton := true }

/-- The reference instance (00_scope section 3), the one every test vector uses unless it says otherwise. -/
def Config.reference : Config :=
  { threshold := 4, accW := 8, timeW := 32, tickUnitNs := 1000, debounceTicks := 20000, activeLevel := false,
    hasButton := true, threshold_pos := by decide, threshold_fits := by decide, timeW_pos := by decide,
    debounce_fits := by decide }

end Sys2Proof
end

