-- ==== Sys2Proof/Syntax.lean ====
section
/-! DEFINITION. The syntax: one constructor per row of spec/opcode_table.json, the input word formats, and the textual
stimulus lines with their pseudo-instructions (30_encoding R45 to R49, R58, R59). -/

namespace Sys2Proof

/-- The four input word formats, one per module (R45 to R48): `q` quadrature_decoder, `d` detent_accumulator,
`b` button_debouncer, `c` encoder_controller. -/
inductive Format where
  | q
  | d
  | b
  | c
  deriving DecidableEq, Repr

/-- The number of bits of a word of the format: 4, 4, `3 + W`, `5 + W` (R45 to R48, R57). -/
def Format.width (cfg : Config) : Format → Nat
  | .q => 4
  | .d => 4
  | .b => cfg.timeW + 3
  | .c => cfg.timeW + 5

/-- One input word: which module's input ports it is put on, and its bits as a number, bit 0 least significant. -/
structure InputWord where
  format : Format
  bits : Nat
  deriving DecidableEq, Repr

/-- The operations of R49 and the 16 full-mask rows of DECODE, one constructor per row of the opcode table.
A field the operation ignores (R56) is kept as an operand, so that an instruction says every bit of its word. -/
inductive Instr where
  /-- DECODE, the operation with its two codes as operands (R61). -/
  | decode (prev cur : Code)
  | decode_00_00
  | decode_00_01
  | decode_00_10
  | decode_00_11
  | decode_01_00
  | decode_01_01
  | decode_01_10
  | decode_01_11
  | decode_10_00
  | decode_10_01
  | decode_10_10
  | decode_10_11
  | decode_11_00
  | decode_11_01
  | decode_11_10
  | decode_11_11
  /-- D_RESET (R68); `tick` is ignored. -/
  | dReset (tick : Bool) (sample : Code)
  /-- D_POLL (R72). -/
  | dPoll (sample : Code)
  /-- D_IDLE (R69); `sample` is ignored. -/
  | dIdle (sample : Code)
  /-- B_RESET (R78); `tick` is ignored. -/
  | bReset (tick : Bool) (raw : Bool) (now : Nat)
  /-- B_POLL (R80). -/
  | bPoll (raw : Bool) (now : Nat)
  /-- B_IDLE (R79); both operands are ignored. -/
  | bIdle (raw : Bool) (now : Nat)
  /-- RESET (R94); `tick` is ignored. -/
  | reset (tick : Bool) (a b btn : Bool) (now : Nat)
  /-- POLL (R95). -/
  | poll (a b btn : Bool) (now : Nat)
  /-- IDLE (R96); all operands are ignored. -/
  | idle (a b btn : Bool) (now : Nat)
  deriving DecidableEq, Repr

/-- The format of an operation's word, the third column of R49. -/
def Instr.format : Instr → Format
  | .decode _ _ => .q
  | .decode_00_00 => .q
  | .decode_00_01 => .q
  | .decode_00_10 => .q
  | .decode_00_11 => .q
  | .decode_01_00 => .q
  | .decode_01_01 => .q
  | .decode_01_10 => .q
  | .decode_01_11 => .q
  | .decode_10_00 => .q
  | .decode_10_01 => .q
  | .decode_10_10 => .q
  | .decode_10_11 => .q
  | .decode_11_00 => .q
  | .decode_11_01 => .q
  | .decode_11_10 => .q
  | .decode_11_11 => .q
  | .dReset _ _ => .d
  | .dPoll _ => .d
  | .dIdle _ => .d
  | .bReset _ _ _ => .b
  | .bPoll _ _ => .b
  | .bIdle _ _ => .b
  | .reset _ _ _ _ _ => .c
  | .poll _ _ _ _ => .c
  | .idle _ _ _ _ => .c

/-- One line of stimulus text: one clock cycle of one module (R58). -/
inductive Line where
  | decode (p c : Code)
  | dReset (s : Code)
  | dPoll (s : Code)
  | dIdle
  | bReset (r : Bool) (t : Nat)
  | bPoll (r : Bool) (t : Nat)
  | bIdle
  | reset (s : Code) (r : Bool) (t : Nat)
  | poll (s : Code) (r : Bool) (t : Nat)
  | idle
  deriving DecidableEq, Repr

/-- The pseudo-instructions of R59. -/
inductive Pseudo where
  /-- `D_SEQ [s0, s1, ..., sn]`. -/
  | dSeq (s0 : Code) (rest : List Code)
  /-- `B_SEQ t0 dt [r0, r1, ..., rn]`. -/
  | bSeq (t0 dt : Nat) (r0 : Bool) (rest : List Bool)
  /-- `IDLE k`. -/
  | idles (k : Nat)
  /-- `D_IDLE k`. -/
  | dIdles (k : Nat)
  /-- `B_IDLE k`. -/
  | bIdles (k : Nat)
  /-- `ROT s t`: a poll of the controller with the button released. -/
  | rot (s : Code) (t : Nat)
  deriving DecidableEq, Repr

end Sys2Proof
end

