-- ==== Sys2Proof/WellFormed.lean ====
section
/-! DEFINITION. Which instructions an instance can be given: every operand fits the width of its field
(30_encoding R45 to R48, R56). The 2-bit codes and the one-bit levels fit by their types; a timestamp must lie below
`2^TIME_W`, and TIME_W is a parameter of the instance. -/

namespace Sys2Proof

/-- A timestamp of this instance (R8). -/
def Config.isTimestamp (cfg : Config) (now : Nat) : Bool :=
  decide (now < 2 ^ cfg.timeW)

/-- The operands fit their fields. -/
def Instr.wf (cfg : Config) : Instr → Bool
  | .decode _ _ => true
  | .decode_00_00 => true
  | .decode_00_01 => true
  | .decode_00_10 => true
  | .decode_00_11 => true
  | .decode_01_00 => true
  | .decode_01_01 => true
  | .decode_01_10 => true
  | .decode_01_11 => true
  | .decode_10_00 => true
  | .decode_10_01 => true
  | .decode_10_10 => true
  | .decode_10_11 => true
  | .decode_11_00 => true
  | .decode_11_01 => true
  | .decode_11_10 => true
  | .decode_11_11 => true
  | .dReset _ _ => true
  | .dPoll _ => true
  | .dIdle _ => true
  | .bReset _ _ now => cfg.isTimestamp now
  | .bPoll _ now => cfg.isTimestamp now
  | .bIdle _ now => cfg.isTimestamp now
  | .reset _ _ _ _ now => cfg.isTimestamp now
  | .poll _ _ _ now => cfg.isTimestamp now
  | .idle _ _ _ now => cfg.isTimestamp now

/-- The bits of an input word fit the width of its format (R57). -/
def InputWord.wf (cfg : Config) (w : InputWord) : Bool :=
  decide (w.bits < 2 ^ w.format.width cfg)

end Sys2Proof
end

