-- ==== Sys2Proof/Decode.lean ====
section
/-! DEFINITION. Decoding an input word, total on any number and rejecting by name; then the encoder, written from the
same tables (30_encoding R45 to R49); then the assembler of the stimulus notation (R58, R59). -/

namespace Sys2Proof

/-- Why a number is no input word of a format. -/
inductive DecodeError where
  /-- The number has a bit above the format's width (R57). -/
  | tooWide (format : Format) (bits : Nat)
  deriving DecidableEq, Repr

/-! ## Bit fields -/

/-- Bit `k` of a word. -/
def bitAt (w k : Nat) : Bool := w.testBit k

/-- The two bits of a code whose low bit is bit `k` of the word. -/
def codeAt (w k : Nat) : Code := BitVec.ofNat 2 (w / 2 ^ k)

/-- The field `now`, bits `W-1:0` of formats B and C (R45, R47). -/
def nowField (cfg : Config) (w : Nat) : Nat := w % 2 ^ cfg.timeW

/-! ## Decoding -/

/-- The row of the opcode table for one pair of codes: the row `DECODE_pp_cc` whose match is `{prev, cur}` (R49). -/
def decodeRow (prev cur : Code) : Instr :=
  match prev.toNat * 4 + cur.toNat with
  | 0 => .decode_00_00
  | 1 => .decode_00_01
  | 2 => .decode_00_10
  | 3 => .decode_00_11
  | 4 => .decode_01_00
  | 5 => .decode_01_01
  | 6 => .decode_01_10
  | 7 => .decode_01_11
  | 8 => .decode_10_00
  | 9 => .decode_10_01
  | 10 => .decode_10_10
  | 11 => .decode_10_11
  | 12 => .decode_11_00
  | 13 => .decode_11_01
  | 14 => .decode_11_10
  | _ => .decode_11_11

/-- Format Q: `prev` bits 3:2, `cur` bits 1:0, no control bits (R48). The full-mask row is taken before the empty-mask
row DECODE (log 10). -/
def decodeQ (w : Nat) : Instr :=
  decodeRow (codeAt w 2) (codeAt w 0)

/-- Format D: `rst` bit 3, `tick` bit 2, `sample` bits 1:0 (R46); `rst` has priority (R44). -/
def decodeD (w : Nat) : Instr :=
  if bitAt w 3 then .dReset (bitAt w 2) (codeAt w 0)
  else if bitAt w 2 then .dPoll (codeAt w 0)
  else .dIdle (codeAt w 0)

/-- Format B: `rst` bit W+2, `tick` W+1, `raw` W, `now` W-1:0 (R47); `rst` has priority (R44). -/
def decodeB (cfg : Config) (w : Nat) : Instr :=
  if bitAt w (cfg.timeW + 2) then .bReset (bitAt w (cfg.timeW + 1)) (bitAt w cfg.timeW) (nowField cfg w)
  else if bitAt w (cfg.timeW + 1) then .bPoll (bitAt w cfg.timeW) (nowField cfg w)
  else .bIdle (bitAt w cfg.timeW) (nowField cfg w)

/-- Format C: `rst` bit W+4, `tick` W+3, `a` W+2, `b` W+1, `btn` W, `now` W-1:0 (R45); `rst` has priority (R44). -/
def decodeC (cfg : Config) (w : Nat) : Instr :=
  if bitAt w (cfg.timeW + 4) then
    .reset (bitAt w (cfg.timeW + 3)) (bitAt w (cfg.timeW + 2)) (bitAt w (cfg.timeW + 1)) (bitAt w cfg.timeW)
      (nowField cfg w)
  else if bitAt w (cfg.timeW + 3) then
    .poll (bitAt w (cfg.timeW + 2)) (bitAt w (cfg.timeW + 1)) (bitAt w cfg.timeW) (nowField cfg w)
  else
    .idle (bitAt w (cfg.timeW + 2)) (bitAt w (cfg.timeW + 1)) (bitAt w cfg.timeW) (nowField cfg w)

/-- The operation a word of a format selects. No word is illegal (R55); a number too wide for the format is no word of
it and is rejected by name (log 5). -/
def decode (cfg : Config) (f : Format) (w : Nat) : Except DecodeError Instr :=
  if w < 2 ^ f.width cfg then
    match f with
    | .q => .ok (decodeQ w)
    | .d => .ok (decodeD w)
    | .b => .ok (decodeB cfg w)
    | .c => .ok (decodeC cfg w)
  else .error (.tooWide f w)

/-! ## Encoding -/

/-- `{prev, cur}` (R48). -/
def wordQ (prev cur : Code) : Nat :=
  prev.toNat * 4 + cur.toNat

/-- `{rst, tick, sample}` (R46). -/
def wordD (rst tick : Bool) (sample : Code) : Nat :=
  rst.toNat * 8 + tick.toNat * 4 + sample.toNat

/-- `{rst, tick, raw, now}` (R47). -/
def wordB (cfg : Config) (rst tick : Bool) (raw : Bool) (now : Nat) : Nat :=
  (rst.toNat * 4 + tick.toNat * 2 + raw.toNat) * 2 ^ cfg.timeW + now

/-- `{rst, tick, a, b, btn, now}` (R45). -/
def wordC (cfg : Config) (rst tick : Bool) (a b btn : Bool) (now : Nat) : Nat :=
  (rst.toNat * 16 + tick.toNat * 8 + a.toNat * 4 + b.toNat * 2 + btn.toNat) * 2 ^ cfg.timeW + now

/-- The word of a well-formed instruction, from the patterns of R49. -/
def encode (cfg : Config) : Instr → Nat
  | .decode prev cur => wordQ prev cur
  | .decode_00_00 => 0x0
  | .decode_00_01 => 0x1
  | .decode_00_10 => 0x2
  | .decode_00_11 => 0x3
  | .decode_01_00 => 0x4
  | .decode_01_01 => 0x5
  | .decode_01_10 => 0x6
  | .decode_01_11 => 0x7
  | .decode_10_00 => 0x8
  | .decode_10_01 => 0x9
  | .decode_10_10 => 0xA
  | .decode_10_11 => 0xB
  | .decode_11_00 => 0xC
  | .decode_11_01 => 0xD
  | .decode_11_10 => 0xE
  | .decode_11_11 => 0xF
  | .dReset tick sample => wordD true tick sample
  | .dPoll sample => wordD false true sample
  | .dIdle sample => wordD false false sample
  | .bReset tick raw now => wordB cfg true tick raw now
  | .bPoll raw now => wordB cfg false true raw now
  | .bIdle raw now => wordB cfg false false raw now
  | .reset tick a b btn now => wordC cfg true tick a b btn now
  | .poll a b btn now => wordC cfg false true a b btn now
  | .idle a b btn now => wordC cfg false false a b btn now

/-- The instruction as the decoder names it: DECODE with its operands is the row of those operands (log 10); every
other instruction is itself. -/
def Instr.canonical : Instr → Instr
  | .decode prev cur => decodeRow prev cur
  | i => i

/-- The input word of an instruction. -/
def Instr.word (cfg : Config) (i : Instr) : InputWord :=
  { format := i.format, bits := encode cfg i }

/-! ## The opcode table's words -/

/-- The module a table word is taken to be for, since a table row gives its module beside its bits and words of
different modules are equal as numbers (log 11): up to 8 bits, quadrature_decoder; 37 bits or a number of more than
35 bits, encoder_controller; else button_debouncer. -/
def tableFormat (nbits w : Nat) : Format :=
  if nbits ≤ 8 then .q
  else if nbits = 37 then .c
  else if w < 2 ^ 35 then .b
  else .c

/-- The instruction the decoder of the reference instance reads from a table word. -/
def decodeTableWord (nbits w : Nat) : Option Instr :=
  match decode Config.reference (tableFormat nbits w) w with
  | .ok i => some i
  | .error _ => none

/-! ## The stimulus notation -/

/-- The instruction of a line: 0 in every ignored field, `a = s[1]`, `b = s[0]`, `t[W-1:0]` (R58). -/
def Line.instr (cfg : Config) : Line → Instr
  | .decode p c => .decode p c
  | .dReset s => .dReset false s
  | .dPoll s => .dPoll s
  | .dIdle => .dIdle 0
  | .bReset r t => .bReset false r (nowField cfg t)
  | .bPoll r t => .bPoll r (nowField cfg t)
  | .bIdle => .bIdle false 0
  | .reset s r t => .reset false (s.getLsbD 1) (s.getLsbD 0) r (nowField cfg t)
  | .poll s r t => .poll (s.getLsbD 1) (s.getLsbD 0) r (nowField cfg t)
  | .idle => .idle false false false 0

/-- The input word the assembler writes for a line (R58). -/
def Line.word (cfg : Config) (l : Line) : InputWord :=
  (l.instr cfg).word cfg

/-- The polls of B_SEQ, the first at `t` and then one every `dt` (R59). -/
def bSeqPolls (dt : Nat) : Nat → List Bool → List Line
  | _, [] => []
  | t, r :: rest => .bPoll r t :: bSeqPolls dt (t + dt) rest

/-- The expansion of a pseudo-instruction (R59). -/
def Pseudo.expand (cfg : Config) : Pseudo → List Line
  | .dSeq s0 rest => .dReset s0 :: rest.map .dPoll
  | .bSeq t0 dt r0 rest => .bReset r0 t0 :: bSeqPolls dt (t0 + dt) rest
  | .idles k => List.replicate k .idle
  | .dIdles k => List.replicate k .dIdle
  | .bIdles k => List.replicate k .bIdle
  | .rot s t => [.poll s (!cfg.activeLevel) t]

end Sys2Proof
end

