-- ==== Sys2Proof/Machine/State.lean ====
section
/-! DEFINITION. The state of the block: the five registers of 10_state R15, with the instance's parameters, the pending
input words and the output ports of the last cycle beside them; the reasons a step stops; the state right after a
RESET cycle (R29). -/

namespace Sys2Proof.Machine

/-- GE's EncoderState, held in `detent_accumulator` (R15). -/
structure EncoderState where
  /-- x[0]: the code `{A, B}` of the last reset or poll (R16). -/
  previousSample : Code
  /-- x[1]: the signed `ACC_W`-bit count of steps since the last reset or event (R17; log 9). -/
  accumulatedSteps : Int
  deriving DecidableEq, Repr

/-- GE's ButtonState, held in `button_debouncer` (R15). It is optional: an instance without a button has none (R21). -/
structure ButtonState where
  /-- x[2]: the last debounced level (R18). -/
  previousLevel : Bool
  /-- x[3]: the time of the last accepted change, below `2^TIME_W` (R19). -/
  lastTransitionTime : Nat
  /-- x[4]: the held latch (R20). -/
  isHeld : Bool
  deriving DecidableEq, Repr

/-- The five registers by name, in the order of their indices x[0] to x[4] (R15). -/
inductive Register where
  | previousSample
  | accumulatedSteps
  | previousLevel
  | lastTransitionTime
  | isHeld
  deriving DecidableEq, Repr

/-- The output ports of the module that ran in a cycle (R43). -/
inductive Output where
  /-- quadrature_decoder: `step` (R51). -/
  | q (step : Code2)
  /-- detent_accumulator: `detent` (R52). -/
  | d (detent : Code2)
  /-- button_debouncer: `press` (R53). -/
  | b (press : Bool)
  /-- encoder_controller: `detent` and `press` (R54). -/
  | c (detent : Code2) (press : Bool)
  deriving DecidableEq, Repr

/-- The machine. -/
structure State where
  /-- The parameters of this instance; constant, no operation writes it (R22, R23; log 1). -/
  cfg : Config
  /-- x[0], x[1]. -/
  enc : EncoderState
  /-- x[2], x[3], x[4]; none where they do not exist (R21). -/
  btn : Option ButtonState
  /-- The input words of the coming clock edges, the next one first (log 4). -/
  inputs : List InputWord
  /-- The output ports during the cycle just ended; no operation reads it (R50; log 6). -/
  out : Output
  /-- The button registers exist exactly in an instance with a button (R12, R21). -/
  btn_present : btn.isSome = cfg.hasButton
  deriving DecidableEq, Repr

/-- There is no fault: no operation of any module raises an exception (R104, R105, R109), so the type has no
constructor. -/
inductive Fault where
  deriving DecidableEq, Repr

/-- Why a step gives no next state. -/
inductive Refusal where
  /-- The fixed interface's rejection of an instruction without a meaning. Raised by no arm: every row has its meaning.
  Safe. -/
  | notModelled (mnemonic : String)
  /-- Raised by `step` when the environment has presented no word for the coming edge (log 4). Safe. -/
  | noInputWord
  /-- Raised by `step` when the pending number is too wide to be a word of its format (log 5). Safe. -/
  | notAWord (e : DecodeError)
  /-- Raised by B_RESET, B_POLL and B_IDLE in an instance with HAS_BUTTON = false: there is no debouncer to execute them
  and its registers do not exist (R12, R21; log 8). Safe. -/
  | noDebouncer
  deriving DecidableEq, Repr

/-! ## Updates, one per field that changes -/

/-- The registers of the accumulator take new values. -/
def State.setEnc (s : State) (e : EncoderState) : State := { s with enc := e }

/-- The registers of the debouncer, where they exist, take the values `f` gives for those they hold. -/
def State.mapBtn (s : State) (f : ButtonState → ButtonState) : State :=
  { s with btn := s.btn.map f, btn_present := by rw [Option.isSome_map, s.btn_present] }

/-- The output ports carry these values during the cycle. -/
def State.setOut (s : State) (o : Output) : State := { s with out := o }

/-- The pending input words become these. -/
def State.setInputs (s : State) (ws : List InputWord) : State := { s with inputs := ws }

/-! ## Reset -/

/-- The state right after a cycle with `rst = 1` and these inputs, the reset value of every register that exists by the
table of R29 (R21, R118, R119). No word is pending, and the controller's outputs of that cycle were 0. -/
def State.afterReset (cfg : Config) (a b btn : Bool) (now : Nat) : State :=
  { cfg := cfg
    enc := { previousSample := BitVec.ofBool a ++ BitVec.ofBool b, accumulatedSteps := 0 }
    btn :=
      if cfg.hasButton then
        some { previousLevel := btn, lastTransitionTime := now, isHeld := btn == cfg.activeLevel }
      else none
    inputs := []
    out := .c 0b00 false
    btn_present := by cases cfg.hasButton <;> rfl }

/-- The reference instance right after the cycle `RESET 0 1 0`, the worked example of R94: both channels 0, the button
released, the clock reading 0. The reset values are a function of the reset cycle's inputs (R119); the choice of this
word is the model's (log 2). -/
def State.reset : State := State.afterReset Config.reference false false true 0

end Sys2Proof.Machine
end

