-- ==== Sys2Proof/Machine/Operands.lean ====
section
/-! DEFINITION. Operand assembly (30_encoding R56): the sample, the table index, the widened step, the elapsed time. -/

namespace Sys2Proof.Machine

/-- `{a, b}`: channel A is bit 1, channel B bit 0 (R34, R56). -/
def sampleOf (a b : Bool) : Code := BitVec.ofBool a ++ BitVec.ofBool b

/-- `idx = {previous, current}`, 4 bits: the earlier code in bits 3:2, the later one in bits 1:0 (R32). -/
def tableIndex (previous current : Code) : BitVec 4 := previous ++ current

/-- The value of a signed number of `w` bits whose low bits are those of `z`: two's complement, so a sum outside the
range wraps (R7, R14). -/
def wrapSigned (w : Nat) (z : Int) : Int := (BitVec.ofInt w z).toInt

/-- `accumulated_steps + sext_ACC_W(step)` as a signed `ACC_W`-bit value (R72, R74). -/
def accumulate (cfg : Config) (acc : Int) (step : Code2) : Int :=
  wrapSigned cfg.accW (acc + step.toInt)

/-- `now -_W last_transition_time`, an unsigned `TIME_W`-bit value (R81). -/
def elapsed (cfg : Config) (now last : Nat) : Nat :=
  (BitVec.ofNat cfg.timeW now - BitVec.ofNat cfg.timeW last).toNat

end Sys2Proof.Machine
end

