-- ==== Sys2Proof/Machine/Flags.lean ====
section
/-! DEFINITION. The flag and the event outputs: `is_held` (10_state R20, R27), the detent event (R72), the press event
(R80), and the output words (R54). There are no other flags (R28). -/

namespace Sys2Proof.Machine

/-- Whether a raw level means pressed: `raw == ACTIVE_LEVEL` (R11). -/
def pressed (cfg : Config) (level : Bool) : Bool := level == cfg.activeLevel

/-- `sum >=s +THRESHOLD` (R72). -/
def reachesClockwise (cfg : Config) (sum : Int) : Bool := decide ((cfg.threshold : Int) ≤ sum)

/-- `sum <=s -THRESHOLD` (R72). -/
def reachesCounterClockwise (cfg : Config) (sum : Int) : Bool := decide (sum ≤ -(cfg.threshold : Int))

/-- The `detent` code of a poll: clockwise is tested first (R72, R73). -/
def detentCode (cfg : Config) (sum : Int) : Code2 :=
  if reachesClockwise cfg sum then 0b01
  else if reachesCounterClockwise cfg sum then 0b11
  else 0b00

/-- The count a poll stores: a hard reset to 0 with an event, else the sum (R71, R72). -/
def storedSteps (cfg : Config) (sum : Int) : Int :=
  if reachesClockwise cfg sum then 0
  else if reachesCounterClockwise cfg sum then 0
  else sum

/-- Whether B_POLL takes GE's transition 3: the level differs and the window has passed (R80). -/
def accepts (cfg : Config) (b : ButtonState) (raw : Bool) (now : Nat) : Bool :=
  (raw != b.previousLevel) && decide (cfg.debounceTicks ≤ elapsed cfg now b.lastTransitionTime)

/-- `press` on an accepted change: the pressed level, and not held before (R80, R85). -/
def pressOnAccept (cfg : Config) (held : Bool) (raw : Bool) : Bool :=
  pressed cfg raw && !held

/-- `is_held` after an accepted change: set by the pressed level (it stays set where it was), cleared by the released
one (R80, R85). -/
def heldOnAccept (cfg : Config) (raw : Bool) : Bool := pressed cfg raw

/-- The output word of a module as one number (R54). -/
def Output.word : Output → Nat
  | .q step => step.toNat
  | .d detent => detent.toNat
  | .b press => press.toNat
  | .c detent press => detent.toNat * 2 + press.toNat

/-- The output word of a cycle without an event: every port 0 (R44, R50). -/
def Output.none : Format → Output
  | .q => .q 0b00
  | .d => .d 0b00
  | .b => .b false
  | .c => .c 0b00 false

end Sys2Proof.Machine
end

