-- ==== Sys2Proof/Machine/Ops.lean ====
section
/-! DEFINITION. The shared operations: reading the transition table (the block's only memory, 20_memory R30 to R37), the
register file, taking the next input word, and one call of each module's update on its own registers. There is no
operation that writes memory (R31), takes an exception or returns from one (R104, R109, R110). -/

namespace Sys2Proof.Machine

/-! ## The transition table -/

/-- QTAB, the 16 entries as 2-bit two's-complement codes, by index (R33, R51). -/
def qtab : Vector Code2 16 :=
  #v[0b00, 0b01, 0b11, 0b00,
     0b11, 0b00, 0b00, 0b01,
     0b01, 0b00, 0b00, 0b11,
     0b00, 0b11, 0b01, 0b00]

/-- `MemRead(idx, 1)`: one whole entry; no index is out of range (R35, R36). -/
def memRead (idx : BitVec 4) : Code2 := qtab[idx.toNat]'idx.isLt

/-- The step of a pair of codes, `QTAB[{previous, current}]` (R61). -/
def stepOf (previous current : Code) : Code2 := memRead (tableIndex previous current)

/-! ## The register file -/

/-- `x[i]` as a number: a code and a timestamp unsigned, the count signed, a level 0 or 1 (R14, R15); none for a
register the instance does not have (R21). -/
def readRegister (s : State) : Register → Option Int
  | .previousSample => some s.enc.previousSample.toNat
  | .accumulatedSteps => some s.enc.accumulatedSteps
  | .previousLevel => s.btn.map fun b => b.previousLevel.toNat
  | .lastTransitionTime => s.btn.map fun b => b.lastTransitionTime
  | .isHeld => s.btn.map fun b => b.isHeld.toNat

/-! ## The input words -/

/-- The word at the coming clock edge, and the state that waits for the one after it (R44; log 4). -/
def fetch (s : State) : Option (InputWord × State) :=
  match s.inputs with
  | [] => Option.none
  | w :: rest => some (w, s.setInputs rest)

/-- The word put where the next step takes it. -/
def placeWord (s : State) (w : InputWord) : State := s.setInputs (w :: s.inputs.tail)

/-! ## One call of each module on its registers -/

/-- The registers of the accumulator after D_RESET (R68). -/
def EncoderState.load (sample : Code) : EncoderState :=
  { previousSample := sample, accumulatedSteps := 0 }

/-- The local `sum` of D_POLL (R72). -/
def EncoderState.sum (cfg : Config) (e : EncoderState) (sample : Code) : Int :=
  accumulate cfg e.accumulatedSteps (stepOf e.previousSample sample)

/-- The registers of the accumulator after D_POLL: the sample always, the count by the sum (R72). -/
def EncoderState.poll (cfg : Config) (e : EncoderState) (sample : Code) : EncoderState :=
  { previousSample := sample, accumulatedSteps := storedSteps cfg (e.sum cfg sample) }

/-- The `detent` output of D_POLL (R72). -/
def EncoderState.event (cfg : Config) (e : EncoderState) (sample : Code) : Code2 :=
  detentCode cfg (e.sum cfg sample)

/-- The registers of the debouncer after B_RESET (R78). -/
def ButtonState.load (cfg : Config) (raw : Bool) (now : Nat) : ButtonState :=
  { previousLevel := raw, lastTransitionTime := now, isHeld := pressed cfg raw }

/-- The registers of the debouncer after B_POLL: written only by an accepted change (R80). -/
def ButtonState.poll (cfg : Config) (b : ButtonState) (raw : Bool) (now : Nat) : ButtonState :=
  if accepts cfg b raw now then
    { previousLevel := raw, lastTransitionTime := now, isHeld := heldOnAccept cfg raw }
  else b

/-- The `press` output of B_POLL (R80, R85). -/
def ButtonState.event (cfg : Config) (b : ButtonState) (raw : Bool) (now : Nat) : Bool :=
  accepts cfg b raw now && pressOnAccept cfg b.isHeld raw

/-! ## The debouncer of the instance -/

/-- An operation of the debouncer, on its registers: refused by name in an instance without one (R12, R21; log 8). -/
def withDebouncer (s : State) (next : ButtonState → State) : Host.Outcome State Fault Refusal :=
  match s.btn with
  | some b => .next (next b)
  | Option.none => .refused .noDebouncer

/-- The `press` output of a poll: the debouncer's, or the constant 0 without one (R80, R92, R100). -/
def pressOf (s : State) (raw : Bool) (now : Nat) : Bool :=
  s.btn.any fun b => b.event s.cfg raw now

end Sys2Proof.Machine
end

