-- ==== Sys2Proof/Machine/Button.lean ====
section
/-! DEFINITION. The button debouncer: B_RESET, B_POLL, B_IDLE (42_button_debouncer R77 to R91). An instance without a
button has no debouncer and refuses its operations by name (R12, R21; log 8). -/

namespace Sys2Proof.Machine

/-- B_RESET: loads the level, the time and the latch, no event (R78). -/
def execBReset (_tick : Bool) (raw : Bool) (now : Nat) (s : State) : Host.Outcome State Fault Refusal :=
  withDebouncer s fun _ => (s.mapBtn fun _ => ButtonState.load s.cfg raw now).setOut (Output.none .b)

/-- B_POLL: stable, noise or accepted change (R80). -/
def execBPoll (raw : Bool) (now : Nat) (s : State) : Host.Outcome State Fault Refusal :=
  withDebouncer s fun b => (s.mapBtn fun _ => b.poll s.cfg raw now).setOut (.b (b.event s.cfg raw now))

/-- B_IDLE: no register is written, no event; the operands are ignored (R79). -/
def execBIdle (_raw : Bool) (_now : Nat) (s : State) : Host.Outcome State Fault Refusal :=
  withDebouncer s fun _ => s.setOut (Output.none .b)

end Sys2Proof.Machine
end

