-- ==== Sys2Proof/Machine/Controller.lean ====
section
/-! DEFINITION. The integrated controller: RESET, POLL, IDLE (43_encoder_controller R92 to R103). Both halves read the
state before the edge and are committed together (R98). The button half acts on the button registers where they exist:
without a button it does nothing and `press` is 0 (R21, R100). -/

namespace Sys2Proof.Machine

/-- RESET: D_RESET of `{a, b}` and, with HAS_BUTTON, B_RESET of `btn` and `now`; no event (R94, R100). -/
def execReset (_tick : Bool) (a b btn : Bool) (now : Nat) (s : State) : Host.Outcome State Fault Refusal :=
  .next (((s.setEnc (EncoderState.load (sampleOf a b))).mapBtn fun _ => ButtonState.load s.cfg btn now).setOut
    (Output.none .c))

/-- POLL: D_POLL of `{a, b}` and, with HAS_BUTTON, B_POLL of `btn` and `now` (R95, R98, R100). -/
def execPoll (a b btn : Bool) (now : Nat) (s : State) : Host.Outcome State Fault Refusal :=
  .next (((s.setEnc (s.enc.poll s.cfg (sampleOf a b))).mapBtn fun r => r.poll s.cfg btn now).setOut
    (.c (s.enc.event s.cfg (sampleOf a b)) (pressOf s btn now)))

/-- IDLE: no register is written, no event; the operands are ignored (R96). -/
def execIdle (_a _b _btn : Bool) (_now : Nat) (s : State) : Host.Outcome State Fault Refusal :=
  .next (s.setOut (Output.none .c))

end Sys2Proof.Machine
end

