-- ==== Sys2Proof/Machine/Detent.lean ====
section
/-! DEFINITION. The detent accumulator: D_RESET, D_POLL, D_IDLE (41_detent_accumulator R67 to R76). -/

namespace Sys2Proof.Machine

/-- D_RESET: loads the sample, clears the count, no event even with `tick = 1` (R68). -/
def execDReset (_tick : Bool) (sample : Code) (s : State) : Host.Outcome State Fault Refusal :=
  .next ((s.setEnc (EncoderState.load sample)).setOut (Output.none .d))

/-- D_POLL: the registers and the event are functions of the registers before the edge and of the sample (R72). -/
def execDPoll (sample : Code) (s : State) : Host.Outcome State Fault Refusal :=
  .next ((s.setEnc (s.enc.poll s.cfg sample)).setOut (.d (s.enc.event s.cfg sample)))

/-- D_IDLE: no register is written, no event; the sample is ignored (R69). -/
def execDIdle (_sample : Code) (s : State) : Host.Outcome State Fault Refusal :=
  .next (s.setOut (Output.none .d))

end Sys2Proof.Machine
end

