-- ==== Sys2Proof/Machine/Quadrature.lean ====
section
/-! DEFINITION. The quadrature decoder: DECODE and its 16 rows (40_quadrature_decoder R60, R61). The module is
combinational: an evaluation drives `step` and writes no register. -/

namespace Sys2Proof.Machine

/-- DECODE of a pair of codes: `out.step <- QTAB[{prev, cur}]`, no register read or written (R61). -/
def driveStep (prev cur : Code) (s : State) : State := s.setOut (.q (stepOf prev cur))

/-- DECODE (R61). -/
def execDecode (prev cur : Code) (s : State) : Host.Outcome State Fault Refusal := .next (driveStep prev cur s)

/-- DECODE_00_00: index 0 (R61, R33). -/
def execDecode_00_00 (s : State) : Host.Outcome State Fault Refusal := .next (driveStep 0b00 0b00 s)

/-- DECODE_00_01: index 1 (R61, R33). -/
def execDecode_00_01 (s : State) : Host.Outcome State Fault Refusal := .next (driveStep 0b00 0b01 s)

/-- DECODE_00_10: index 2 (R61, R33). -/
def execDecode_00_10 (s : State) : Host.Outcome State Fault Refusal := .next (driveStep 0b00 0b10 s)

/-- DECODE_00_11: index 3 (R61, R33). -/
def execDecode_00_11 (s : State) : Host.Outcome State Fault Refusal := .next (driveStep 0b00 0b11 s)

/-- DECODE_01_00: index 4 (R61, R33). -/
def execDecode_01_00 (s : State) : Host.Outcome State Fault Refusal := .next (driveStep 0b01 0b00 s)

/-- DECODE_01_01: index 5 (R61, R33). -/
def execDecode_01_01 (s : State) : Host.Outcome State Fault Refusal := .next (driveStep 0b01 0b01 s)

/-- DECODE_01_10: index 6 (R61, R33). -/
def execDecode_01_10 (s : State) : Host.Outcome State Fault Refusal := .next (driveStep 0b01 0b10 s)

/-- DECODE_01_11: index 7 (R61, R33). -/
def execDecode_01_11 (s : State) : Host.Outcome State Fault Refusal := .next (driveStep 0b01 0b11 s)

/-- DECODE_10_00: index 8 (R61, R33). -/
def execDecode_10_00 (s : State) : Host.Outcome State Fault Refusal := .next (driveStep 0b10 0b00 s)

/-- DECODE_10_01: index 9 (R61, R33). -/
def execDecode_10_01 (s : State) : Host.Outcome State Fault Refusal := .next (driveStep 0b10 0b01 s)

/-- DECODE_10_10: index 10 (R61, R33). -/
def execDecode_10_10 (s : State) : Host.Outcome State Fault Refusal := .next (driveStep 0b10 0b10 s)

/-- DECODE_10_11: index 11 (R61, R33). -/
def execDecode_10_11 (s : State) : Host.Outcome State Fault Refusal := .next (driveStep 0b10 0b11 s)

/-- DECODE_11_00: index 12 (R61, R33). -/
def execDecode_11_00 (s : State) : Host.Outcome State Fault Refusal := .next (driveStep 0b11 0b00 s)

/-- DECODE_11_01: index 13 (R61, R33). -/
def execDecode_11_01 (s : State) : Host.Outcome State Fault Refusal := .next (driveStep 0b11 0b01 s)

/-- DECODE_11_10: index 14 (R61, R33). -/
def execDecode_11_10 (s : State) : Host.Outcome State Fault Refusal := .next (driveStep 0b11 0b10 s)

/-- DECODE_11_11: index 15 (R61, R33). -/
def execDecode_11_11 (s : State) : Host.Outcome State Fault Refusal := .next (driveStep 0b11 0b11 s)

end Sys2Proof.Machine
end

