-- ==== Sys2Proof/Machine/Dispatch.lean ====
section
/-! DEFINITION. The dispatch: one arm per row of the opcode table (30_encoding R49). -/

namespace Sys2Proof.Machine

def exec (i : Instr) (s : State) : Host.Outcome State Fault Refusal :=
  match i with
  -- quadrature_decoder
  | .decode prev cur => Sys2Proof.Machine.execDecode prev cur s
  | .decode_00_00 => Sys2Proof.Machine.execDecode_00_00 s
  | .decode_00_01 => Sys2Proof.Machine.execDecode_00_01 s
  | .decode_00_10 => Sys2Proof.Machine.execDecode_00_10 s
  | .decode_00_11 => Sys2Proof.Machine.execDecode_00_11 s
  | .decode_01_00 => Sys2Proof.Machine.execDecode_01_00 s
  | .decode_01_01 => Sys2Proof.Machine.execDecode_01_01 s
  | .decode_01_10 => Sys2Proof.Machine.execDecode_01_10 s
  | .decode_01_11 => Sys2Proof.Machine.execDecode_01_11 s
  | .decode_10_00 => Sys2Proof.Machine.execDecode_10_00 s
  | .decode_10_01 => Sys2Proof.Machine.execDecode_10_01 s
  | .decode_10_10 => Sys2Proof.Machine.execDecode_10_10 s
  | .decode_10_11 => Sys2Proof.Machine.execDecode_10_11 s
  | .decode_11_00 => Sys2Proof.Machine.execDecode_11_00 s
  | .decode_11_01 => Sys2Proof.Machine.execDecode_11_01 s
  | .decode_11_10 => Sys2Proof.Machine.execDecode_11_10 s
  | .decode_11_11 => Sys2Proof.Machine.execDecode_11_11 s
  -- detent_accumulator
  | .dReset tick sample => Sys2Proof.Machine.execDReset tick sample s
  | .dPoll sample => Sys2Proof.Machine.execDPoll sample s
  | .dIdle sample => Sys2Proof.Machine.execDIdle sample s
  -- button_debouncer
  | .bReset tick raw now => Sys2Proof.Machine.execBReset tick raw now s
  | .bPoll raw now => Sys2Proof.Machine.execBPoll raw now s
  | .bIdle raw now => Sys2Proof.Machine.execBIdle raw now s
  -- encoder_controller
  | .reset tick a b btn now => Sys2Proof.Machine.execReset tick a b btn now s
  | .poll a b btn now => Sys2Proof.Machine.execPoll a b btn now s
  | .idle a b btn now => Sys2Proof.Machine.execIdle a b btn now s

end Sys2Proof.Machine
end

