-- ==== Sys2Proof/Machine/Step.lean ====
section
/-! DEFINITION. One step: one clock edge with the next input word (30_encoding R44, R50). -/

namespace Sys2Proof.Machine

/-- One rising edge: the pending word is taken, decoded and executed. Without a word the model does not go on (log 4),
and a number too wide for its format is no word (log 5). -/
def step (s : State) : Host.Outcome State Fault Refusal :=
  match fetch s with
  | Option.none => .refused .noInputWord
  | some (w, waiting) =>
    match decode s.cfg w.format w.bits with
    | .error e => .refused (.notAWord e)
    | .ok i => exec i waiting

/-- The state whose next step takes the given table word, on the ports of the module `tableFormat` names (log 11). -/
def State.withFetchWord (s : State) (nbits w : Nat) : State :=
  placeWord s { format := tableFormat nbits w, bits := w }

end Sys2Proof.Machine
end

