-- ==== Sys2Proof/Safety.lean ====
section
/-! DEFINITION. What the statements speak of: the invariants of 10_state section 3, runs of operations and what is
observed of them, and the register columns of R15. -/

namespace Sys2Proof.Machine

/-! ## Invariants -/

/-- `-THRESHOLD < accumulated_steps < +THRESHOLD` (R25). -/
def EncoderState.Inv (cfg : Config) (e : EncoderState) : Prop :=
  -(cfg.threshold : Int) < e.accumulatedSteps ∧ e.accumulatedSteps < cfg.threshold

/-- The stored time is a timestamp (R19), and `is_held` is true exactly when the debounced level is pressed (R27). -/
def ButtonState.Inv (cfg : Config) (b : ButtonState) : Prop :=
  b.lastTransitionTime < 2 ^ cfg.timeW ∧ b.isHeld = (b.previousLevel == cfg.activeLevel)

/-- No port carries the code `0b10` (R51, R52). -/
def Output.Inv : Output → Prop
  | .q step => step ≠ 0b10
  | .d detent => detent ≠ 0b10
  | .b _ => True
  | .c detent _ => detent ≠ 0b10

/-- What every state reached from a RESET satisfies. -/
def State.Inv (s : State) : Prop :=
  s.enc.Inv s.cfg ∧ (∀ b, s.btn = some b → b.Inv s.cfg) ∧ s.out.Inv

/-! ## Runs -/

/-- The operations executed one after another: the outputs of each cycle and the last state, if none stops. -/
def runOps : List Instr → State → Option (List Output × State)
  | [], s => some ([], s)
  | i :: rest, s =>
    match exec i s with
    | .next t => (runOps rest t).map fun r => (t.out :: r.1, r.2)
    | .fault _ => none
    | .refused _ => none

/-- The `detent` port of an output word, none where the module has no such port. -/
def Output.detent : Output → Code2
  | .q _ => 0b00
  | .d detent => detent
  | .b _ => 0b00
  | .c detent _ => detent

/-- The `press` port of an output word, 0 where the module has no such port. -/
def Output.press : Output → Bool
  | .q _ => false
  | .d _ => false
  | .b press => press
  | .c _ press => press

/-- The steps decoded along a sequence of samples, from the code before it (R61). -/
def pathSteps : Code → List Code → List Int
  | _, [] => []
  | previous, current :: rest => (stepOf previous current).toInt :: pathSteps current rest

/-- The code after one transition of the forward cycle 00, 01, 11, 10, 00 (R62). -/
def nextForward (code : Code) : Code :=
  match code.toNat with
  | 0 => 0b01
  | 1 => 0b11
  | 3 => 0b10
  | _ => 0b00

/-- Whether the debounced level is the pressed one (R18), false without a button. -/
def State.pressedLevel (s : State) : Bool := s.btn.any fun b => b.previousLevel == s.cfg.activeLevel

/-- Whether the instance contains the module a format belongs to: without a button there is no debouncer (R12, R92). -/
def State.hasModule (s : State) : Format → Bool
  | .q => true
  | .d => true
  | .b => s.cfg.hasButton
  | .c => true

/-- How many accepted transitions to the released level a run takes (R80). -/
def acceptedReleases : List Instr → State → Nat
  | [], _ => 0
  | i :: rest, s =>
    match exec i s with
    | .next t =>
      (s.pressedLevel && !t.pressedLevel).toNat + acceptedReleases rest t
    | .fault _ => 0
    | .refused _ => 0

end Sys2Proof.Machine

namespace Sys2Proof

open Machine

/-! ## Classes of operations (R44) -/

/-- An operation that loads the button registers: B_RESET or RESET. -/
def Instr.loadsButton : Instr → Bool
  | .bReset _ _ _ => true
  | .reset _ _ _ _ _ => true
  | _ => false

/-- The idle class of a clocked module. -/
def Instr.isIdle : Instr → Bool
  | .dIdle _ => true
  | .bIdle _ _ => true
  | .idle _ _ _ _ => true
  | _ => false

/-- The poll class of a clocked module. -/
def Instr.isPoll : Instr → Bool
  | .dPoll _ => true
  | .bPoll _ _ => true
  | .poll _ _ _ _ => true
  | _ => false

/-- The column "written by" of R15, the controller's operations reaching the registers through its modules
(R92, R100). -/
def Instr.mayWrite (cfg : Config) (r : Register) : Instr → Bool
  | .dReset _ _ => r = .previousSample || r = .accumulatedSteps
  | .dPoll _ => r = .previousSample || r = .accumulatedSteps
  | .bReset _ _ _ => r = .previousLevel || r = .lastTransitionTime || r = .isHeld
  | .bPoll _ _ => r = .previousLevel || r = .lastTransitionTime || r = .isHeld
  | .reset _ _ _ _ _ => r = .previousSample || r = .accumulatedSteps || cfg.hasButton
  | .poll _ _ _ _ => r = .previousSample || r = .accumulatedSteps || cfg.hasButton
  | _ => false

end Sys2Proof

namespace Sys2Proof.Machine

/-! ## The input of one controller cycle, and what its modules see of it (R92) -/

/-- The input ports of `encoder_controller` but `clk` (R42). -/
structure Cycle where
  rst : Bool
  tick : Bool
  a : Bool
  b : Bool
  btn : Bool
  now : Nat
  deriving DecidableEq, Repr

/-- The controller's operation in the cycle (R44). -/
def Cycle.controller (y : Cycle) : Instr :=
  if y.rst then .reset y.tick y.a y.b y.btn y.now
  else if y.tick then .poll y.a y.b y.btn y.now
  else .idle y.a y.b y.btn y.now

/-- The accumulator's operation in the cycle, wired by R92. -/
def Cycle.accumulator (y : Cycle) : Instr :=
  if y.rst then .dReset y.tick (sampleOf y.a y.b)
  else if y.tick then .dPoll (sampleOf y.a y.b)
  else .dIdle (sampleOf y.a y.b)

/-- The debouncer's operation in the cycle, wired by R92. -/
def Cycle.debouncer (y : Cycle) : Instr :=
  if y.rst then .bReset y.tick y.btn y.now
  else if y.tick then .bPoll y.btn y.now
  else .bIdle y.btn y.now

end Sys2Proof.Machine
end

