-- ==== Sys2Proof/Certificates/Slice0/Obligations.lean ====
section
/-! DEFINITION. The statements about the model, one `def Obligations.<Name> : Prop` each; OBLIGATIONS.json lists them
with the rules they rest on. -/

open Sys2Proof Sys2Proof.Machine

/-! ## Words, decoding and the step -/

/-- R45 to R48: the widths of the four formats and the places of their fields, control bits first; R44, R49: `rst` before
`tick` selects the operation. That a format Q word is given as the row DECODE_pp_cc of its codes, and not as DECODE, is the
model's choice (log 10). -/
def Obligations.FormatsPlaceTheirFields : Prop :=
  (∀ cfg : Config, Format.width cfg .q = 4 ∧ Format.width cfg .d = 4 ∧ Format.width cfg .b = 3 + cfg.timeW
    ∧ Format.width cfg .c = 5 + cfg.timeW)
  ∧ (∀ (cfg : Config) (prev cur : Code),
      decode cfg .q (prev.toNat * 2 ^ 2 + cur.toNat) = .ok (decodeRow prev cur)
      ∧ (Instr.decode prev cur).canonical = decodeRow prev cur
      ∧ encode cfg (.decode prev cur) = prev.toNat * 2 ^ 2 + cur.toNat)
  ∧ (∀ (cfg : Config) (rst tick : Bool) (sample : Code),
      decode cfg .d (rst.toNat * 2 ^ 3 + tick.toNat * 2 ^ 2 + sample.toNat)
        = .ok (if rst then .dReset tick sample else if tick then .dPoll sample else .dIdle sample))
  ∧ (∀ (cfg : Config) (rst tick : Bool) (raw : Bool) (now : Nat), now < 2 ^ cfg.timeW →
      decode cfg .b (rst.toNat * 2 ^ (cfg.timeW + 2) + tick.toNat * 2 ^ (cfg.timeW + 1) + raw.toNat * 2 ^ cfg.timeW + now)
        = .ok (if rst then .bReset tick raw now else if tick then .bPoll raw now else .bIdle raw now))
  ∧ (∀ (cfg : Config) (rst tick : Bool) (a b btn : Bool) (now : Nat), now < 2 ^ cfg.timeW →
      decode cfg .c (rst.toNat * 2 ^ (cfg.timeW + 4) + tick.toNat * 2 ^ (cfg.timeW + 3) + a.toNat * 2 ^ (cfg.timeW + 2)
          + b.toNat * 2 ^ (cfg.timeW + 1) + btn.toNat * 2 ^ cfg.timeW + now)
        = .ok (if rst then .reset tick a b btn now else if tick then .poll a b btn now else .idle a b btn now))

/-- R49, the reference instance: the match and mask of each of the nine clocked rows of the operation map say which words
decode to it, and every word of every format decodes. A format Q word, on which the row DECODE and one of its 16 full-mask
rows both match, is given as the full-mask row: the model's choice (log 10). -/
def Obligations.MatchAndMaskSelectTheOperation : Prop :=
  (∀ w, w < 2 ^ 4 → ∃ prev cur : Code, decode Config.reference .q w = .ok (decodeRow prev cur)
      ∧ w &&& 0xF = prev.toNat * 4 + cur.toNat)
  ∧ (∀ w, w < 2 ^ 4 → ∃ i, decode Config.reference .d w = .ok i
      ∧ (w &&& 0x8 = 0x8 ↔ ∃ tick sample, i = .dReset tick sample)
      ∧ (w &&& 0xC = 0x4 ↔ ∃ sample, i = .dPoll sample)
      ∧ (w &&& 0xC = 0x0 ↔ ∃ sample, i = .dIdle sample))
  ∧ (∀ w, w < 2 ^ 35 → ∃ i, decode Config.reference .b w = .ok i
      ∧ (w &&& 0x400000000 = 0x400000000 ↔ ∃ tick raw now, i = .bReset tick raw now)
      ∧ (w &&& 0x600000000 = 0x200000000 ↔ ∃ raw now, i = .bPoll raw now)
      ∧ (w &&& 0x600000000 = 0x000000000 ↔ ∃ raw now, i = .bIdle raw now))
  ∧ (∀ w, w < 2 ^ 37 → ∃ i, decode Config.reference .c w = .ok i
      ∧ (w &&& 0x1000000000 = 0x1000000000 ↔ ∃ tick a b btn now, i = .reset tick a b btn now)
      ∧ (w &&& 0x1800000000 = 0x0800000000 ↔ ∃ a b btn now, i = .poll a b btn now)
      ∧ (w &&& 0x1800000000 = 0x0000000000 ↔ ∃ a b btn now, i = .idle a b btn now))

/-- Decoding the word of a well-formed instruction gives the instruction, with every bit of its operands; DECODE comes
back as the row of its two codes, which acts alike (the model's choice, log 10). -/
def Obligations.DecodeOfEncodeIsTheInstruction : Prop :=
  ∀ (cfg : Config) (i : Instr), i.wf cfg = true →
    decode cfg i.format (encode cfg i) = .ok i.canonical
    ∧ ((∀ prev cur, i ≠ .decode prev cur) → i.canonical = i)
    ∧ ∀ s, exec i.canonical s = exec i s

/-- A word has one meaning: what it decodes to is well formed, has its format and is encoded by that word alone. -/
def Obligations.EncodeOfDecodeIsTheWord : Prop :=
  ∀ (cfg : Config) (f : Format) (w : Nat) (i : Instr), decode cfg f w = .ok i →
    i.format = f ∧ i.wf cfg = true ∧ encode cfg i = w

/-- Words of the worked examples of R61, R68, R69, R72, R78, R80, R94, R95 and R96, of V-C1 and of program P3, written
out in the spec: what they decode to on the reference instance. The words of `DECODE 0 1` and `DECODE 1 0` are given as the
rows DECODE_00_01 and DECODE_01_00 (the model's choice, log 10). -/
def Obligations.WordsOfTheSpecDecodeRight : Prop :=
  decode Config.reference .q 0b0001 = .ok .decode_00_01
  ∧ decode Config.reference .q 0b0100 = .ok .decode_01_00
  ∧ decode Config.reference .d 0b1011 = .ok (.dReset false 3)
  ∧ decode Config.reference .d 0b0100 = .ok (.dPoll 0)
  ∧ decode Config.reference .d 0b0000 = .ok (.dIdle 0)
  ∧ decode Config.reference .b 0x5000003E8 = .ok (.bReset false true 1000)
  ∧ decode Config.reference .b 0x200007530 = .ok (.bPoll false 30000)
  ∧ decode Config.reference .c 0x1100000000 = .ok (.reset false false false true 0)
  ∧ decode Config.reference .c 0x1800000000 = .ok (.reset true false false false 0)
  ∧ decode Config.reference .c 0x08000061A8 = .ok (.poll false false false 25000)
  ∧ decode Config.reference .c 0x0D000F7120 = .ok (.poll true false true 1012000)
  ∧ decode Config.reference .c 0x0000000000 = .ok (.idle false false false 0)

/-- R58: the word the assembler writes for each line, and that the line's operation is what the word decodes to. That the
word of `DECODE p c` is given as the row DECODE_pp_cc of its codes, and not as DECODE, is the model's choice (log 10). -/
def Obligations.LinesAssembleToTheirWords : Prop :=
  (∀ (cfg : Config) (p c s : Code),
    (Line.decode p c).word cfg = ⟨.q, p.toNat * 4 + c.toNat⟩
    ∧ (Line.dReset s).word cfg = ⟨.d, 8 + s.toNat⟩
    ∧ (Line.dPoll s).word cfg = ⟨.d, 4 + s.toNat⟩
    ∧ (Line.dIdle).word cfg = ⟨.d, 0⟩)
  ∧ (∀ (cfg : Config) (s : Code) (r : Bool) (t : Nat),
    (Line.bReset r t).word cfg = ⟨.b, 2 ^ (cfg.timeW + 2) + r.toNat * 2 ^ cfg.timeW + t % 2 ^ cfg.timeW⟩
    ∧ (Line.bPoll r t).word cfg = ⟨.b, 2 ^ (cfg.timeW + 1) + r.toNat * 2 ^ cfg.timeW + t % 2 ^ cfg.timeW⟩
    ∧ (Line.bIdle).word cfg = ⟨.b, 0⟩
    ∧ (Line.reset s r t).word cfg
        = ⟨.c, 2 ^ (cfg.timeW + 4) + s.toNat * 2 ^ (cfg.timeW + 1) + r.toNat * 2 ^ cfg.timeW + t % 2 ^ cfg.timeW⟩
    ∧ (Line.poll s r t).word cfg
        = ⟨.c, 2 ^ (cfg.timeW + 3) + s.toNat * 2 ^ (cfg.timeW + 1) + r.toNat * 2 ^ cfg.timeW + t % 2 ^ cfg.timeW⟩
    ∧ (Line.idle).word cfg = ⟨.c, 0⟩)
  ∧ (∀ (cfg : Config) (l : Line),
      decode cfg (l.word cfg).format (l.word cfg).bits = .ok (l.instr cfg).canonical)

/-- R59: the first code of D_SEQ may be read as a first poll instead, from a state whose `previous_sample` equals it and
whose count is 0: the same events and the same last state. -/
def Obligations.FirstSampleMayBeAResetOrAPoll : Prop :=
  ∀ (s : State) (s0 : Code) (rest : List Code),
    s.enc.previousSample = s0 → s.enc.accumulatedSteps = 0 →
    runOps (.dPoll s0 :: rest.map .dPoll) s
      = runOps (((Pseudo.dSeq s0 rest).expand s.cfg).map (Line.instr s.cfg)) s

/-- One step takes the pending word and runs the operation it decodes to, on the state that waits for the next word
(the queue of pending words is the model's, log 4). -/
def Obligations.StepRunsTheDecodedOperation : Prop :=
  ∀ (s : State) (w : InputWord) (rest : List InputWord) (i : Instr),
    s.inputs = w :: rest → decode s.cfg w.format w.bits = .ok i →
    step s = exec i { s with inputs := rest }

/-- A step goes on exactly when a word of its format is pending for a module the instance has; it then takes that one word
and keeps the instance's parameters, and otherwise it stops by name (log 4, log 5, log 8). -/
def Obligations.StepGoesOnExactlyWithAWord : Prop :=
  ∀ s : State,
    ((∃ t, step s = .next t) ↔
      ∃ w rest, s.inputs = w :: rest ∧ w.bits < 2 ^ w.format.width s.cfg ∧ s.hasModule w.format = true)
    ∧ (s.inputs = [] → step s = .refused .noInputWord)
    ∧ (∀ w rest, s.inputs = w :: rest → 2 ^ w.format.width s.cfg ≤ w.bits →
        step s = .refused (.notAWord (.tooWide w.format w.bits)))
    ∧ (∀ w rest, s.inputs = w :: rest → w.bits < 2 ^ w.format.width s.cfg → s.hasModule w.format = false →
        step s = .refused .noDebouncer)
    ∧ (∀ t, step s = .next t → t.cfg = s.cfg ∧ ∃ w, s.inputs = w :: t.inputs)

/-- R104: every operation of every module an instance has completes, for any operands and in any state, and no fault
exists. (A debouncer that an instance without a button lacks executes nothing: AbsentDebouncerHasNoRegisters.) -/
def Obligations.NoOperationRaises : Prop :=
  (∀ (i : Instr) (s : State), s.hasModule i.format = true → ∃ t, exec i s = .next t)
  ∧ (Fault → False)

/-- R15, the column "written by": an operation changes no register but those its row names, and never the instance's
parameters or the pending words. -/
def Obligations.RegistersAreWrittenByTheirOperationsOnly : Prop :=
  ∀ (i : Instr) (s t : State), exec i s = .next t →
    t.cfg = s.cfg ∧ t.inputs = s.inputs
    ∧ ∀ r, i.mayWrite s.cfg r = false → readRegister t r = readRegister s r

/-- R50: the outputs and the next registers are functions of the registers before the edge and of the word; events are
non-zero only in a poll cycle. -/
def Obligations.OutputsFollowStateAndInputOnly : Prop :=
  (∀ (i : Instr) (s1 s2 t1 t2 : State), s1.cfg = s2.cfg → s1.enc = s2.enc → s1.btn = s2.btn →
    exec i s1 = .next t1 → exec i s2 = .next t2 → t1.out = t2.out ∧ t1.enc = t2.enc ∧ t1.btn = t2.btn)
  ∧ (∀ (i : Instr) (s t : State), exec i s = .next t →
      (t.out.detent ≠ 0b00 ∨ t.out.press = true) → i.isPoll = true)

/-- R44, decision D4: any number of idle cycles, of any module the instance has and with anything on the ignored inputs,
drives only zeros and is invisible to every operation that follows. -/
def Obligations.IdleCyclesAreInvisible : Prop :=
  ∀ (idles : List Instr) (s : State), (∀ i ∈ idles, i.isIdle = true ∧ s.hasModule i.format = true) →
    ∃ outs t, runOps idles s = some (outs, t) ∧ (∀ o ∈ outs, o.word = 0)
      ∧ t.cfg = s.cfg ∧ t.enc = s.enc ∧ t.btn = s.btn ∧ t.inputs = s.inputs
      ∧ ∀ next, exec next t = exec next s

/-! ## The quadrature decoder -/

/-- R33: the contents of QTAB by index, the index being `{previous, current}` (R32). -/
def Obligations.TransitionTableContents : Prop :=
  (List.range 16).map (fun idx => (memRead (BitVec.ofNat 4 idx)).toInt)
    = [0, 1, -1, 0, -1, 0, 0, 1, 1, 0, 0, -1, 0, -1, 1, 0]
  ∧ ∀ previous current : Code, (tableIndex previous current).toNat = previous.toNat * 4 + current.toNat

/-- R61: DECODE and each of its 16 rows, its word and its whole effect: it completes in every state, drives the table's
entry and writes nothing. That a word of the format is given as the row of its codes, and not as DECODE, is the model's
choice (log 10). -/
def Obligations.DecodeDrivesTheTableEntry : Prop :=
  ∀ s : State,
    (∀ prev cur : Code,
      decode s.cfg .q (prev.toNat * 4 + cur.toNat) = .ok (decodeRow prev cur)
      ∧ exec (decodeRow prev cur) s = .next { s with out := .q (memRead (prev ++ cur)) }
      ∧ exec (.decode prev cur) s = .next { s with out := .q (memRead (prev ++ cur)) })
    ∧ exec .decode_00_00 s = .next { s with out := .q 0b00 }
    ∧ exec .decode_00_01 s = .next { s with out := .q 0b01 }
    ∧ exec .decode_00_10 s = .next { s with out := .q 0b11 }
    ∧ exec .decode_00_11 s = .next { s with out := .q 0b00 }
    ∧ exec .decode_01_00 s = .next { s with out := .q 0b11 }
    ∧ exec .decode_01_01 s = .next { s with out := .q 0b00 }
    ∧ exec .decode_01_10 s = .next { s with out := .q 0b00 }
    ∧ exec .decode_01_11 s = .next { s with out := .q 0b01 }
    ∧ exec .decode_10_00 s = .next { s with out := .q 0b01 }
    ∧ exec .decode_10_01 s = .next { s with out := .q 0b00 }
    ∧ exec .decode_10_10 s = .next { s with out := .q 0b00 }
    ∧ exec .decode_10_11 s = .next { s with out := .q 0b11 }
    ∧ exec .decode_11_00 s = .next { s with out := .q 0b00 }
    ∧ exec .decode_11_01 s = .next { s with out := .q 0b11 }
    ∧ exec .decode_11_10 s = .next { s with out := .q 0b01 }
    ∧ exec .decode_11_11 s = .next { s with out := .q 0b00 }

/-- R63: the gate form, both ways of telling the sign, agrees with the table at every pair of codes. -/
def Obligations.GateFormAgreesWithTheTable : Prop :=
  ∀ pa pb ca cb : Bool,
    let moved := (pa ^^ ca) ^^ (pb ^^ cb)
    stepOf (sampleOf pa pb) (sampleOf ca cb) = (if !moved then 0b00 else if pa ^^ cb then 0b01 else 0b11)
    ∧ stepOf (sampleOf pa pb) (sampleOf ca cb) = (if !moved then 0b00 else if pb ^^ ca then 0b11 else 0b01)

/-- R64: the step is -1, 0 or +1 and antisymmetric; 4, 4 and 8 entries are +1, -1 and 0; from each code exactly one
next code gives +1, one gives -1 and two, itself and its complement, give 0. -/
def Obligations.DecodeIsAntisymmetric : Prop :=
  (∀ a b : Code, (stepOf a b).toInt ∈ [-1, 0, 1] ∧ (stepOf a b).toInt = -(stepOf b a).toInt)
  ∧ (qtab.toList.count 0b01 = 4 ∧ qtab.toList.count 0b11 = 4 ∧ qtab.toList.count 0b00 = 8)
  ∧ (∀ a : Code, (∃ f, ∀ b, stepOf a b = 0b01 ↔ b = f) ∧ (∃ r, ∀ b, stepOf a b = 0b11 ↔ b = r)
      ∧ ∀ b, stepOf a b = 0b00 ↔ b = a ∨ b = ~~~a)

/-- R62, R66, R124: one transition of the forward cycle is +1 and back -1; two missed ones read as 0, three as a step the
other way, four as no change. -/
def Obligations.ForwardCycleAndMissedTransitions : Prop :=
  ∀ code : Code,
    stepOf code (nextForward code) = 0b01
    ∧ stepOf (nextForward code) code = 0b11
    ∧ stepOf code (nextForward (nextForward code)) = 0b00
    ∧ stepOf code (nextForward (nextForward (nextForward code))) = 0b11
    ∧ nextForward (nextForward (nextForward (nextForward code))) = code

/-! ## The detent accumulator -/

/-- R68: D_RESET, its words and its whole effect. -/
def Obligations.DResetLoadsTheSample : Prop :=
  ∀ (s : State) (tick : Bool) (sample : Code),
    decode s.cfg .d (8 + tick.toNat * 4 + sample.toNat) = .ok (.dReset tick sample)
    ∧ exec (.dReset tick sample) s
        = .next { s with enc := { previousSample := sample, accumulatedSteps := 0 }, out := .d 0b00 }

/-- R69: D_IDLE, its words and its whole effect. -/
def Obligations.DIdleChangesNothing : Prop :=
  ∀ (s : State) (sample : Code),
    decode s.cfg .d sample.toNat = .ok (.dIdle sample)
    ∧ exec (.dIdle sample) s = .next { s with out := .d 0b00 }

/-- R72: D_POLL, its words and its whole effect, the sum a signed `ACC_W`-bit value. -/
def Obligations.DPollAccumulatesAndFires : Prop :=
  ∀ (s : State) (sample : Code),
    let step := memRead (s.enc.previousSample ++ sample)
    let sum := (BitVec.ofInt s.cfg.accW (s.enc.accumulatedSteps + step.toInt)).toInt
    decode s.cfg .d (4 + sample.toNat) = .ok (.dPoll sample)
    ∧ exec (.dPoll sample) s = .next
        (if (s.cfg.threshold : Int) ≤ sum then
          { s with enc := { previousSample := sample, accumulatedSteps := 0 }, out := .d 0b01 }
        else if sum ≤ -(s.cfg.threshold : Int) then
          { s with enc := { previousSample := sample, accumulatedSteps := 0 }, out := .d 0b11 }
        else { s with enc := { previousSample := sample, accumulatedSteps := sum }, out := .d 0b00 })

/-- R74: where the count is in range before a poll, the sum is the mathematical one, at most THRESHOLD in magnitude, and
THRESHOLD fits the register. -/
def Obligations.SumNeverOverflows : Prop :=
  ∀ (cfg : Config) (e : EncoderState) (sample : Code), e.Inv cfg →
    e.sum cfg sample = e.accumulatedSteps + (stepOf e.previousSample sample).toInt
    ∧ -(cfg.threshold : Int) ≤ e.sum cfg sample ∧ e.sum cfg sample ≤ cfg.threshold
    ∧ (cfg.threshold : Int) ≤ 2 ^ (cfg.accW - 1) - 1

/-- R71, R73: an event leaves exactly 0; the two conditions exclude each other; with the count in range the
sum never exceeds THRESHOLD in magnitude and an event is fired exactly when it equals plus or minus THRESHOLD, so there is
no overshoot to discard. -/
def Obligations.EventResetsTheCountToZero : Prop :=
  ∀ (s t : State) (sample : Code), exec (.dPoll sample) s = .next t →
    (t.out ≠ .d 0b00 → t.enc.accumulatedSteps = 0)
    ∧ ¬((s.cfg.threshold : Int) ≤ s.enc.sum s.cfg sample ∧ s.enc.sum s.cfg sample ≤ -(s.cfg.threshold : Int))
    ∧ (s.enc.Inv s.cfg →
        |s.enc.sum s.cfg sample| ≤ (s.cfg.threshold : Int)
        ∧ (t.out = .d 0b01 ↔ s.enc.sum s.cfg sample = s.cfg.threshold)
        ∧ (t.out = .d 0b11 ↔ s.enc.sum s.cfg sample = -(s.cfg.threshold : Int)))

/-- R75, the counting law: from a count of 0, polls whose steps are all +1 or 0 fire a clockwise event exactly at the
+1 steps numbered by multiples of THRESHOLD, no other event, and leave N mod THRESHOLD; with -1 in place of +1, the
mirror image. -/
def Obligations.DetentsCountTheSteps : Prop :=
  ∀ (s : State) (samples : List Code), s.enc.accumulatedSteps = 0 →
    let steps := pathSteps s.enc.previousSample samples
    ∃ outs t, runOps (samples.map .dPoll) s = some (outs, t) ∧ outs.length = samples.length
      ∧ ((∀ x ∈ steps, x = 1 ∨ x = 0) →
          t.enc.accumulatedSteps = (steps.count 1 % s.cfg.threshold : Nat)
          ∧ (∀ o ∈ outs, o = .d 0b00 ∨ o = .d 0b01)
          ∧ ∀ k, k < samples.length → (outs[k]? = some (.d 0b01) ↔
              steps[k]? = some 1 ∧ s.cfg.threshold ∣ (steps.take (k + 1)).count 1))
      ∧ ((∀ x ∈ steps, x = -1 ∨ x = 0) →
          t.enc.accumulatedSteps = -(steps.count (-1) % s.cfg.threshold : Nat)
          ∧ (∀ o ∈ outs, o = .d 0b00 ∨ o = .d 0b11)
          ∧ ∀ k, k < samples.length → (outs[k]? = some (.d 0b11) ↔
              steps[k]? = some (-1) ∧ s.cfg.threshold ∣ (steps.take (k + 1)).count (-1)))

/-- No step is lost or invented: over any polls from a count in range, the count after, plus THRESHOLD for each
clockwise event and minus THRESHOLD for each counter-clockwise one, is the count before plus all steps. -/
def Obligations.StepsAreAccountedFor : Prop :=
  ∀ (s : State) (samples : List Code), s.enc.Inv s.cfg →
    ∃ outs t, runOps (samples.map .dPoll) s = some (outs, t) ∧ t.enc.Inv s.cfg
      ∧ t.enc.accumulatedSteps
          + s.cfg.threshold * ((outs.count (.d 0b01) : Int) - (outs.count (.d 0b11) : Int))
        = s.enc.accumulatedSteps + (pathSteps s.enc.previousSample samples).sum

/-- R76: polls whose running count stays strictly inside plus and minus THRESHOLD emit nothing and add up; an illegal
double-bit change leaves the count and takes the new code. -/
def Obligations.StepsCancelBelowTheThreshold : Prop :=
  (∀ (s : State) (samples : List Code),
    (∀ k, k ≤ samples.length →
      |s.enc.accumulatedSteps + ((pathSteps s.enc.previousSample samples).take k).sum| < (s.cfg.threshold : Int)) →
    ∃ outs t, runOps (samples.map .dPoll) s = some (outs, t) ∧ (∀ o ∈ outs, o = .d 0b00)
      ∧ t.enc.accumulatedSteps = s.enc.accumulatedSteps + (pathSteps s.enc.previousSample samples).sum)
  ∧ (∀ s : State, s.enc.Inv s.cfg →
      exec (.dPoll (~~~s.enc.previousSample)) s
        = .next { s with
            enc := { previousSample := ~~~s.enc.previousSample, accumulatedSteps := s.enc.accumulatedSteps },
            out := .d 0b00 })

/-! ## The button debouncer

An instance with a button has one, and its registers: `s.btn = some b`. Without a button neither exists (R21):
AbsentDebouncerHasNoRegisters. -/

/-- R78: B_RESET, its words and its whole effect. -/
def Obligations.BResetLoadsLevelTimeAndLatch : Prop :=
  ∀ (s : State) (tick : Bool) (raw : Bool) (now : Nat), s.cfg.hasButton = true →
    (now < 2 ^ s.cfg.timeW →
      decode s.cfg .b (2 ^ (s.cfg.timeW + 2) + tick.toNat * 2 ^ (s.cfg.timeW + 1) + raw.toNat * 2 ^ s.cfg.timeW + now)
        = .ok (.bReset tick raw now))
    ∧ exec (.bReset tick raw now) s
        = .next ((s.mapBtn fun _ =>
            { previousLevel := raw, lastTransitionTime := now, isHeld := raw == s.cfg.activeLevel }).setOut (.b false))
    ∧ ∀ t, exec (.bReset tick raw now) s = .next t →
        t.btn = some { previousLevel := raw, lastTransitionTime := now, isHeld := raw == s.cfg.activeLevel }

/-- R79: B_IDLE, its words and its whole effect. -/
def Obligations.BIdleChangesNothing : Prop :=
  ∀ (s : State) (raw : Bool) (now : Nat), s.cfg.hasButton = true →
    (now < 2 ^ s.cfg.timeW → decode s.cfg .b (raw.toNat * 2 ^ s.cfg.timeW + now) = .ok (.bIdle raw now))
    ∧ exec (.bIdle raw now) s = .next { s with out := .b false }

/-- R80: B_POLL, its words and its whole effect: stable, noise, accept. -/
def Obligations.BPollDebounces : Prop :=
  ∀ (s : State) (b : ButtonState) (raw : Bool) (now : Nat), s.btn = some b →
    let elapsed := (BitVec.ofNat s.cfg.timeW now - BitVec.ofNat s.cfg.timeW b.lastTransitionTime).toNat
    let accept (held : Bool) := s.mapBtn fun _ => { previousLevel := raw, lastTransitionTime := now, isHeld := held }
    (now < 2 ^ s.cfg.timeW →
      decode s.cfg .b (2 ^ (s.cfg.timeW + 1) + raw.toNat * 2 ^ s.cfg.timeW + now) = .ok (.bPoll raw now))
    ∧ exec (.bPoll raw now) s = .next
        (if raw = b.previousLevel then { s with out := .b false }
        else if elapsed < s.cfg.debounceTicks then { s with out := .b false }
        else if raw = s.cfg.activeLevel then
          if b.isHeld = false then (accept true).setOut (.b true) else (accept b.isHeld).setOut (.b false)
        else (accept false).setOut (.b false))

/-- R81: a poll accepts a differing level exactly when `(now - last_transition_time) mod 2^TIME_W`, taken over the
integers, is at least DEBOUNCE_TICKS. -/
def Obligations.ElapsedTimeIsModular : Prop :=
  ∀ (s : State) (b : ButtonState) (raw : Bool) (now : Nat), s.btn = some b →
    now < 2 ^ s.cfg.timeW → b.lastTransitionTime < 2 ^ s.cfg.timeW →
    (elapsed s.cfg now b.lastTransitionTime : Int) = ((now : Int) - b.lastTransitionTime) % 2 ^ s.cfg.timeW
    ∧ ∃ t b', exec (.bPoll raw now) s = .next t ∧ t.btn = some b'
      ∧ (b'.previousLevel ≠ b.previousLevel ↔
          raw ≠ b.previousLevel
          ∧ (s.cfg.debounceTicks : Int) ≤ ((now : Int) - b.lastTransitionTime) % 2 ^ s.cfg.timeW)

/-- R82: a change seen DEBOUNCE_TICKS after the last acceptance is accepted, one count earlier it is rejected and nothing
is written, the clock wrapping or not. -/
def Obligations.WindowBoundary : Prop :=
  ∀ (s : State) (b : ButtonState) (raw : Bool), s.btn = some b →
    b.lastTransitionTime < 2 ^ s.cfg.timeW → raw ≠ b.previousLevel →
    (∃ t b', exec (.bPoll raw ((b.lastTransitionTime + s.cfg.debounceTicks) % 2 ^ s.cfg.timeW)) s = .next t
      ∧ t.btn = some b' ∧ b'.previousLevel = raw)
    ∧ (1 ≤ s.cfg.debounceTicks →
        exec (.bPoll raw ((b.lastTransitionTime + (s.cfg.debounceTicks - 1)) % 2 ^ s.cfg.timeW)) s
          = .next { s with out := .b false })

/-- R88: when the true elapsed time is `k` wraps plus `e`, a poll computes `e`: a differing level is accepted exactly
when `e` has reached the window. -/
def Obligations.WrappedClockReadsTheResidue : Prop :=
  ∀ (s : State) (b : ButtonState) (raw : Bool) (k e : Nat), s.btn = some b →
    b.lastTransitionTime < 2 ^ s.cfg.timeW → e < 2 ^ s.cfg.timeW → raw ≠ b.previousLevel →
    ∃ t b', exec (.bPoll raw ((b.lastTransitionTime + (k * 2 ^ s.cfg.timeW + e)) % 2 ^ s.cfg.timeW)) s = .next t
      ∧ t.btn = some b' ∧ (b'.previousLevel = raw ↔ s.cfg.debounceTicks ≤ e)

/-- R85: an accepted pressed level while already held writes the level and the time, keeps the latch and reports nothing;
the case cannot occur where the latch mirrors the level. -/
def Obligations.PressedWhileHeldReportsNothing : Prop :=
  ∀ (s : State) (b : ButtonState) (now : Nat), s.btn = some b → b.previousLevel ≠ s.cfg.activeLevel →
    (b.isHeld = true → s.cfg.debounceTicks ≤ elapsed s.cfg now b.lastTransitionTime →
      exec (.bPoll s.cfg.activeLevel now) s
        = .next ((s.mapBtn fun _ =>
            { previousLevel := s.cfg.activeLevel, lastTransitionTime := now, isHeld := true }).setOut (.b false)))
    ∧ (b.Inv s.cfg → b.isHeld = false)

/-- R86: presses and accepted releases alternate. Over any operations that load no button register, from a state whose
latch mirrors the level, the presses reported, plus one if the button was held before, are the accepted releases, plus one
if it is held after; so between two presses there is an accepted release. -/
def Obligations.PressesAlternateWithReleases : Prop :=
  ∀ (ops : List Instr) (s : State) (b : ButtonState), s.btn = some b → b.Inv s.cfg →
    (∀ i ∈ ops, i.wf s.cfg = true ∧ i.loadsButton = false) →
    ∃ outs t b', runOps ops s = some (outs, t) ∧ t.btn = some b' ∧ b'.Inv s.cfg
      ∧ outs.countP Output.press + b.isHeld.toNat = acceptedReleases ops s + b'.isHeld.toNat

/-- R87: the closed form of the output and of the next state of a debouncer that has been reset, for every word of its
format. -/
def Obligations.PressClosedForm : Prop :=
  ∀ (s : State) (b : ButtonState) (rst tick : Bool) (raw : Bool) (now : Nat), s.btn = some b → b.Inv s.cfg →
    now < 2 ^ s.cfg.timeW →
    let due := tick && !rst && (raw != b.previousLevel)
      && decide (s.cfg.debounceTicks ≤ elapsed s.cfg now b.lastTransitionTime)
    ∃ i t,
      decode s.cfg .b (rst.toNat * 2 ^ (s.cfg.timeW + 2) + tick.toNat * 2 ^ (s.cfg.timeW + 1)
        + raw.toNat * 2 ^ s.cfg.timeW + now) = .ok i
      ∧ exec i s = .next t
      ∧ t.out = .b (due && (raw == s.cfg.activeLevel))
      ∧ t.btn = some
          (if rst || due then
            { previousLevel := raw, lastTransitionTime := now, isHeld := raw == s.cfg.activeLevel }
          else b)

/-- R84: however the raw level chatters, a differing sample seen less than the window after the last acceptance
produces no event and writes no register. -/
def Obligations.ChatterInsideTheWindowIsIgnored : Prop :=
  ∀ (s : State) (b : ButtonState) (polls : List (Bool × Nat)), s.btn = some b →
    (∀ p ∈ polls, p.1 ≠ b.previousLevel → elapsed s.cfg p.2 b.lastTransitionTime < s.cfg.debounceTicks) →
    ∃ outs t, runOps (polls.map fun p => .bPoll p.1 p.2) s = some (outs, t)
      ∧ outs = polls.map (fun _ => Output.b false) ∧ t.btn = some b ∧ t.enc = s.enc

/-- R90: holding the level at `previous_level` never returns true; a held differing level is accepted at the first poll
that finds the window passed and, if it is the pressed one, returns true there and nowhere else. -/
def Obligations.HeldLevelReportsOnce : Prop :=
  (∀ (s : State) (b : ButtonState) (times : List Nat), s.btn = some b →
    ∃ outs t, runOps (times.map (.bPoll b.previousLevel)) s = some (outs, t)
      ∧ (∀ o ∈ outs, o = .b false) ∧ t.btn = some b)
  ∧ (∀ (s : State) (b : ButtonState) (raw : Bool) (early : List Nat) (first : Nat) (late : List Nat),
      s.btn = some b → b.Inv s.cfg → raw ≠ b.previousLevel →
      (∀ now ∈ early, elapsed s.cfg now b.lastTransitionTime < s.cfg.debounceTicks) →
      s.cfg.debounceTicks ≤ elapsed s.cfg first b.lastTransitionTime →
      ∃ outs t, runOps ((early ++ first :: late).map (.bPoll raw)) s = some (outs, t)
        ∧ outs = early.map (fun _ => Output.b false)
            ++ Output.b (raw == s.cfg.activeLevel) :: late.map (fun _ => Output.b false)
        ∧ t.btn = some
            { previousLevel := raw, lastTransitionTime := first, isHeld := raw == s.cfg.activeLevel })

/-! ## The controller -/

/-- R94: RESET, its words and its whole effect; the button registers are loaded where they exist (R21). -/
def Obligations.ResetLoadsEveryRegister : Prop :=
  ∀ (s : State) (tick : Bool) (a b btn : Bool) (now : Nat),
    (now < 2 ^ s.cfg.timeW →
      decode s.cfg .c (2 ^ (s.cfg.timeW + 4) + tick.toNat * 2 ^ (s.cfg.timeW + 3) + a.toNat * 2 ^ (s.cfg.timeW + 2)
        + b.toNat * 2 ^ (s.cfg.timeW + 1) + btn.toNat * 2 ^ s.cfg.timeW + now) = .ok (.reset tick a b btn now))
    ∧ ∃ t, exec (.reset tick a b btn now) s = .next t
      ∧ t.enc = { previousSample := BitVec.ofBool a ++ BitVec.ofBool b, accumulatedSteps := 0 }
      ∧ (s.cfg.hasButton = true →
          t.btn = some { previousLevel := btn, lastTransitionTime := now, isHeld := btn == s.cfg.activeLevel })
      ∧ (s.cfg.hasButton = false → t.btn = none)
      ∧ t.out = .c 0b00 false ∧ t.cfg = s.cfg ∧ t.inputs = s.inputs

/-- R95: POLL is D_POLL of `{a, b}` and, with HAS_BUTTON, B_POLL of `btn` and `now`, both on the state before the edge. -/
def Obligations.PollIsBothHalves : Prop :=
  ∀ (s : State) (a b btn : Bool) (now : Nat),
    (now < 2 ^ s.cfg.timeW →
      decode s.cfg .c (2 ^ (s.cfg.timeW + 3) + a.toNat * 2 ^ (s.cfg.timeW + 2) + b.toNat * 2 ^ (s.cfg.timeW + 1)
        + btn.toNat * 2 ^ s.cfg.timeW + now) = .ok (.poll a b btn now))
    ∧ ∃ d t : State,
        exec (.dPoll (BitVec.ofBool a ++ BitVec.ofBool b)) s = .next d
        ∧ exec (.poll a b btn now) s = .next t
        ∧ t.cfg = s.cfg ∧ t.inputs = s.inputs ∧ t.enc = d.enc
        ∧ (s.cfg.hasButton = true → ∃ p : State, exec (.bPoll btn now) s = .next p
            ∧ t.btn = p.btn ∧ t.out = .c d.out.detent p.out.press)
        ∧ (s.cfg.hasButton = false → t.btn = none ∧ t.out = .c d.out.detent false)

/-- R96: IDLE, its words and its whole effect. -/
def Obligations.IdleChangesNothing : Prop :=
  ∀ (s : State) (a b btn : Bool) (now : Nat),
    (now < 2 ^ s.cfg.timeW →
      decode s.cfg .c (a.toNat * 2 ^ (s.cfg.timeW + 2) + b.toNat * 2 ^ (s.cfg.timeW + 1) + btn.toNat * 2 ^ s.cfg.timeW
        + now) = .ok (.idle a b btn now))
    ∧ exec (.idle a b btn now) s = .next { s with out := .c 0b00 false }

/-- R98: the halves of a POLL are independent. Either order of the two inner polls ends in the registers of the POLL, and
neither event depends on the other half's registers or inputs. -/
def Obligations.HalvesOfAPollCommute : Prop :=
  (∀ (s : State) (a b btn : Bool) (now : Nat), s.cfg.hasButton = true →
    ∃ outs1 outs2 t t1 t2,
      exec (.poll a b btn now) s = .next t
      ∧ runOps [.dPoll (sampleOf a b), .bPoll btn now] s = some (outs1, t1)
      ∧ runOps [.bPoll btn now, .dPoll (sampleOf a b)] s = some (outs2, t2)
      ∧ t1.enc = t.enc ∧ t1.btn = t.btn ∧ t2.enc = t.enc ∧ t2.btn = t.btn
      ∧ outs1 = [.d t.out.detent, .b t.out.press] ∧ outs2 = [.b t.out.press, .d t.out.detent])
  ∧ (∀ (s1 s2 t1 t2 : State) (a b btn1 btn2 : Bool) (now1 now2 : Nat),
      s1.cfg = s2.cfg → s1.enc = s2.enc →
      exec (.poll a b btn1 now1) s1 = .next t1 → exec (.poll a b btn2 now2) s2 = .next t2 →
      t1.out.detent = t2.out.detent ∧ t1.enc = t2.enc)
  ∧ (∀ (s1 s2 t1 t2 : State) (a1 b1 a2 b2 btn : Bool) (now : Nat),
      s1.cfg = s2.cfg → s1.btn = s2.btn →
      exec (.poll a1 b1 btn now) s1 = .next t1 → exec (.poll a2 b2 btn now) s2 = .next t2 →
      t1.out.press = t2.out.press ∧ t1.btn = t2.btn)

/-- R92, R100: over any sequence of cycles the controller is its modules side by side, each driven by the wiring of R92:
the same registers and the same events as an accumulator and, with a button, as a debouncer; without one the button
registers do not exist and the press output stays 0. -/
def Obligations.ControllerIsItsTwoModules : Prop :=
  ∀ (cycles : List Cycle) (s : State),
    ∃ outs outsD t tD,
      runOps (cycles.map Cycle.controller) s = some (outs, t)
      ∧ runOps (cycles.map Cycle.accumulator) s = some (outsD, tD)
      ∧ t.enc = tD.enc ∧ outs.map Output.detent = outsD.map Output.detent
      ∧ (s.cfg.hasButton = true → ∃ outsB tB,
          runOps (cycles.map Cycle.debouncer) s = some (outsB, tB)
          ∧ t.btn = tB.btn ∧ outs.map Output.press = outsB.map Output.press)
      ∧ (s.cfg.hasButton = false → t.btn = none ∧ ∀ o ∈ outs, o.press = false)

/-- R54, R99: the output word of a POLL is one of 0, 1, 2, 3, 6, 7 from any state, and each of them is the word of some
poll; no port of any module ever carries `0b10`. -/
def Obligations.OutputWordsOfAPoll : Prop :=
  (∀ (s t : State) (a b btn : Bool) (now : Nat), exec (.poll a b btn now) s = .next t →
    t.out.word ∈ [0, 1, 2, 3, 6, 7])
  ∧ (∀ v ∈ [0, 1, 2, 3, 6, 7], ∃ (s t : State) (a b btn : Bool) (now : Nat),
      s.Inv ∧ exec (.poll a b btn now) s = .next t ∧ t.out.word = v)
  ∧ (∀ (i : Instr) (s t : State), exec i s = .next t → t.out.Inv)

/-- R100: without a button the state has no button registers, RESET and POLL do the accumulator's half only, `press` is 0,
and `btn` and `now` play no part in any operation. -/
def Obligations.WithoutAButtonOnlyTheRotationHalf : Prop :=
  ∀ (s : State) (a b btn : Bool) (now : Nat), s.cfg.hasButton = false →
    s.btn = none
    ∧ (∀ tick, exec (.reset tick a b btn now) s
      = .next { s with enc := { previousSample := sampleOf a b, accumulatedSteps := 0 }, out := .c 0b00 false })
    ∧ (∃ d, exec (.dPoll (sampleOf a b)) s = .next d
        ∧ exec (.poll a b btn now) s = .next { s with enc := d.enc, out := .c d.out.detent false })
    ∧ exec (.idle a b btn now) s = .next { s with out := .c 0b00 false }

/-- R24: after every reset and every poll `previous_sample` is the sample of that cycle; `previous_level` is the raw level
after a reset and after a poll unless the poll rejected a change as noise. -/
def Obligations.PreviousSampleFollowsEveryPoll : Prop :=
  (∀ (s : State) (tick : Bool) (sample : Code) (t : State),
    exec (.dReset tick sample) s = .next t ∨ exec (.dPoll sample) s = .next t → t.enc.previousSample = sample)
  ∧ (∀ (s : State) (tick a b : Bool) (raw : Bool) (now : Nat) (t : State),
    exec (.reset tick a b raw now) s = .next t ∨ exec (.poll a b raw now) s = .next t →
      t.enc.previousSample = sampleOf a b)
  ∧ (∀ (s : State) (r : ButtonState) (tick a b : Bool) (raw : Bool) (now : Nat), s.btn = some r →
    let noise := raw ≠ r.previousLevel ∧ elapsed s.cfg now r.lastTransitionTime < s.cfg.debounceTicks
    (∀ t, exec (.bReset tick raw now) s = .next t ∨ exec (.reset tick a b raw now) s = .next t →
      ∃ r', t.btn = some r' ∧ r'.previousLevel = raw)
    ∧ (∀ t, exec (.bPoll raw now) s = .next t ∨ exec (.poll a b raw now) s = .next t →
        ∃ r', t.btn = some r' ∧ (r'.previousLevel = raw ↔ ¬noise)))

/-! ## Reset, parameters and invariants -/

/-- R118, R119: a RESET loads every register the instance has from its own cycle's inputs, whatever the registers held
before, and of several resets the last one counts. -/
def Obligations.ResetForgetsThePast : Prop :=
  (∀ (s : State) (tick : Bool) (a b btn : Bool) (now : Nat),
    exec (.reset tick a b btn now) s = .next { State.afterReset s.cfg a b btn now with inputs := s.inputs })
  ∧ (∀ (s : State) (first : List Cycle) (last : Cycle),
      (∀ y ∈ first, y.rst = true) → last.rst = true →
      ∃ outs, runOps ((first ++ [last]).map Cycle.controller) s
        = some (outs, { State.afterReset s.cfg last.a last.b last.btn last.now with inputs := s.inputs })
        ∧ ∀ o ∈ outs, o = .c 0b00 false)

/-- The model's choice of the reset state (log 2): State.reset is the reference instance after the RESET of the word
`0x1100000000`, from any register contents. -/
def Obligations.ResetStateIsTheWorkedExample : Prop :=
  (∀ s : State, s.cfg = Config.reference →
    exec (.reset false false false true 0) s = .next { State.reset with inputs := s.inputs })
  ∧ State.reset.enc = { previousSample := 0, accumulatedSteps := 0 }
  ∧ State.reset.btn = some { previousLevel := true, lastTransitionTime := 0, isHeld := false }
  ∧ State.reset.inputs = [] ∧ State.reset.out.word = 0

/-- Every reset state meets the invariant, State.reset among them. -/
def Obligations.ResetStateMeetsTheInvariant : Prop :=
  State.reset.Inv
  ∧ ∀ (cfg : Config) (a b btn : Bool) (now : Nat), now < 2 ^ cfg.timeW →
      (State.afterReset cfg a b btn now).Inv

/-- R25, R27, R51, R52: from every state that meets the invariant, every step that goes on leads to one that does. -/
def Obligations.StepKeepsTheInvariant : Prop :=
  ∀ s t : State, s.Inv → step s = .next t → t.Inv

/-- R25, R27 and R120: whatever the registers held, as after power-up, one RESET of a controller makes the invariant hold,
and so does a D_RESET with a B_RESET of the stand-alone modules. -/
def Obligations.OneResetEstablishesTheInvariant : Prop :=
  (∀ (s t : State) (tick : Bool) (a b btn : Bool) (now : Nat),
    now < 2 ^ s.cfg.timeW → exec (.reset tick a b btn now) s = .next t → t.Inv)
  ∧ (∀ (s : State) (tick1 tick2 : Bool) (sample : Code) (raw : Bool) (now : Nat), s.cfg.hasButton = true →
      now < 2 ^ s.cfg.timeW →
      ∃ outs t, runOps [.dReset tick1 sample, .bReset tick2 raw now] s = some (outs, t) ∧ t.Inv)

/-- R7, R9: every legal ACC_W, and every TICK_UNIT, gives the same behaviour. Two instances that differ in these two
parameters only, with the same registers and the count in range, give the same outputs and registers over any
operations whose modules they have. -/
def Obligations.EveryLegalWidthBehavesAlike : Prop :=
  ∀ (ops : List Instr) (s1 s2 : State),
    s1.cfg.threshold = s2.cfg.threshold → s1.cfg.timeW = s2.cfg.timeW →
    s1.cfg.debounceTicks = s2.cfg.debounceTicks → s1.cfg.activeLevel = s2.cfg.activeLevel →
    s1.enc = s2.enc → s1.btn = s2.btn → s1.enc.Inv s1.cfg → (∀ i ∈ ops, s1.hasModule i.format = true) →
    ∃ outs t1 t2, runOps ops s1 = some (outs, t1) ∧ runOps ops s2 = some (outs, t2)
      ∧ t1.enc = t2.enc ∧ t1.btn = t2.btn

/-- U2, D22: an instance is elaborated exactly from legal parameters, and has them. -/
def Obligations.OnlyLegalInstancesAreElaborated : Prop :=
  (∀ p : Params,
    (∃ cfg, p.elaborate = .ok cfg) ↔
      1 ≤ p.threshold ∧ p.threshold ≤ 2 ^ (p.accW - 1) - 1 ∧ 1 ≤ p.timeW ∧ p.debounceTicks < 2 ^ p.timeW
      ∧ (p.activeLevel = 0 ∨ p.activeLevel = 1))
  ∧ (∀ (p : Params) (cfg : Config), p.elaborate = .ok cfg →
      (cfg.threshold : Int) = p.threshold ∧ cfg.accW = p.accW ∧ cfg.timeW = p.timeW
      ∧ cfg.tickUnitNs = p.tickUnitNs ∧ cfg.debounceTicks = p.debounceTicks
      ∧ cfg.activeLevel.toNat = p.activeLevel ∧ cfg.hasButton = p.hasButton)
  ∧ Params.reference.elaborate = .ok Config.reference

/-- U15, U16: with THRESHOLD = 1 every non-zero step is an event and the count stays 0; with DEBOUNCE_TICKS = 0 every
change of level is accepted at the poll that sees it. -/
def Obligations.DegenerateParameters : Prop :=
  (∀ (s : State) (sample : Code), s.cfg.threshold = 1 → s.enc.Inv s.cfg →
    exec (.dPoll sample) s
      = .next { s with
          enc := { previousSample := sample, accumulatedSteps := 0 },
          out := .d (stepOf s.enc.previousSample sample) })
  ∧ (∀ (s : State) (raw : Bool) (now : Nat), s.cfg.hasButton = true → s.cfg.debounceTicks = 0 →
      ∃ t b, exec (.bPoll raw now) s = .next t ∧ t.btn = some b ∧ b.previousLevel = raw)

/-- R21: the button registers exist exactly in an instance with a button, before and after every operation, and reading one
finds nothing there otherwise; the two accumulator registers always exist. Without a button there is no debouncer, so that
its three operations stop by name: the model's choice (log 8). -/
def Obligations.AbsentDebouncerHasNoRegisters : Prop :=
  (∀ s : State,
    (s.btn = none ↔ s.cfg.hasButton = false)
    ∧ ((readRegister s .previousSample).isSome ∧ (readRegister s .accumulatedSteps).isSome)
    ∧ ∀ r ∈ [Register.previousLevel, .lastTransitionTime, .isHeld],
        (readRegister s r).isSome = s.cfg.hasButton)
  ∧ (∀ (i : Instr) (s t : State), exec i s = .next t → t.btn.isSome = s.btn.isSome)
  ∧ (∀ (s : State) (tick raw : Bool) (now : Nat), s.cfg.hasButton = false →
      exec (.bReset tick raw now) s = .refused .noDebouncer
      ∧ exec (.bPoll raw now) s = .refused .noDebouncer
      ∧ exec (.bIdle raw now) s = .refused .noDebouncer)
end

