-- ==== Sys2Proof/Laws/Decode.lean ====
section
/-! SUPPORT. The bit fields of a word built from its fields, and the width of a word of each format. -/

namespace Sys2Proof

theorem level_toNat_le_one (b : Bool) : b.toNat ≤ 1 := by cases b <;> decide

/-- A word of format D fits 4 bits. -/
theorem wordD_lt (rst tick : Bool) (sample : Code) : wordD rst tick sample < 2 ^ 4 := by
  have := sample.isLt
  cases rst <;> cases tick <;> simp [wordD] <;> omega

/-- A word of format Q fits 4 bits. -/
theorem wordQ_lt (prev cur : Code) : wordQ prev cur < 2 ^ 4 := by
  have := prev.isLt; have := cur.isLt
  simp [wordQ]; omega

/-- A word of format B fits its width. -/
theorem wordB_lt (cfg : Config) (rst tick : Bool) (raw : Bool) {now : Nat} (hn : now < 2 ^ cfg.timeW) :
    wordB cfg rst tick raw now < 2 ^ (cfg.timeW + 3) := by
  have := level_toNat_le_one rst; have := level_toNat_le_one tick; have := level_toNat_le_one raw
  have hm : (rst.toNat * 4 + tick.toNat * 2 + raw.toNat) * 2 ^ cfg.timeW ≤ 7 * 2 ^ cfg.timeW :=
    Nat.mul_le_mul_right _ (by omega)
  simp only [wordB, pow_add]; omega

/-- A word of format C fits its width. -/
theorem wordC_lt (cfg : Config) (rst tick : Bool) (a b btn : Bool) {now : Nat} (hn : now < 2 ^ cfg.timeW) :
    wordC cfg rst tick a b btn now < 2 ^ (cfg.timeW + 5) := by
  have := level_toNat_le_one rst; have := level_toNat_le_one tick; have := level_toNat_le_one a
  have := level_toNat_le_one b; have := level_toNat_le_one btn
  have hm : (rst.toNat * 16 + tick.toNat * 8 + a.toNat * 4 + b.toNat * 2 + btn.toNat) * 2 ^ cfg.timeW
      ≤ 31 * 2 ^ cfg.timeW := Nat.mul_le_mul_right _ (by omega)
  simp only [wordC, pow_add]; omega

/-- Bit `W + k` of a word with the control field `top` above a timestamp is bit `k` of the field. -/
theorem bitAt_above (W top now k : Nat) (hn : now < 2 ^ W) : bitAt (top * 2 ^ W + now) (W + k) = top.testBit k := by
  rw [bitAt, Nat.mul_comm, Nat.testBit_two_pow_mul_add _ hn]
  simp

/-- The timestamp field below a control field. -/
theorem nowField_below (cfg : Config) (top now : Nat) (hn : now < 2 ^ cfg.timeW) :
    nowField cfg (top * 2 ^ cfg.timeW + now) = now := by
  rw [nowField, Nat.add_comm, Nat.add_mul_mod_self_right, Nat.mod_eq_of_lt hn]

/-- A decoded word's timestamp fits. -/
theorem nowField_lt (cfg : Config) (w : Nat) : nowField cfg w < 2 ^ cfg.timeW :=
  Nat.mod_lt _ (by positivity)

end Sys2Proof
end

