-- ==== Sys2Proof/Laws/State.lean ====
section
/-! SUPPORT. One lemma per field per update of State. -/

namespace Sys2Proof.Machine

@[simp] theorem State.setEnc_cfg (s : State) (e : EncoderState) : (s.setEnc e).cfg = s.cfg := rfl
@[simp] theorem State.setEnc_enc (s : State) (e : EncoderState) : (s.setEnc e).enc = e := rfl
@[simp] theorem State.setEnc_btn (s : State) (e : EncoderState) : (s.setEnc e).btn = s.btn := rfl
@[simp] theorem State.setEnc_inputs (s : State) (e : EncoderState) : (s.setEnc e).inputs = s.inputs := rfl
@[simp] theorem State.setEnc_out (s : State) (e : EncoderState) : (s.setEnc e).out = s.out := rfl

@[simp] theorem State.mapBtn_cfg (s : State) (f : ButtonState → ButtonState) : (s.mapBtn f).cfg = s.cfg := rfl
@[simp] theorem State.mapBtn_enc (s : State) (f : ButtonState → ButtonState) : (s.mapBtn f).enc = s.enc := rfl
@[simp] theorem State.mapBtn_btn (s : State) (f : ButtonState → ButtonState) : (s.mapBtn f).btn = s.btn.map f := rfl
@[simp] theorem State.mapBtn_inputs (s : State) (f : ButtonState → ButtonState) :
    (s.mapBtn f).inputs = s.inputs := rfl
@[simp] theorem State.mapBtn_out (s : State) (f : ButtonState → ButtonState) : (s.mapBtn f).out = s.out := rfl

@[simp] theorem State.setOut_cfg (s : State) (o : Output) : (s.setOut o).cfg = s.cfg := rfl
@[simp] theorem State.setOut_enc (s : State) (o : Output) : (s.setOut o).enc = s.enc := rfl
@[simp] theorem State.setOut_btn (s : State) (o : Output) : (s.setOut o).btn = s.btn := rfl
@[simp] theorem State.setOut_inputs (s : State) (o : Output) : (s.setOut o).inputs = s.inputs := rfl
@[simp] theorem State.setOut_out (s : State) (o : Output) : (s.setOut o).out = o := rfl

@[simp] theorem State.setInputs_cfg (s : State) (ws : List InputWord) : (s.setInputs ws).cfg = s.cfg := rfl
@[simp] theorem State.setInputs_enc (s : State) (ws : List InputWord) : (s.setInputs ws).enc = s.enc := rfl
@[simp] theorem State.setInputs_btn (s : State) (ws : List InputWord) : (s.setInputs ws).btn = s.btn := rfl
@[simp] theorem State.setInputs_inputs (s : State) (ws : List InputWord) : (s.setInputs ws).inputs = ws := rfl
@[simp] theorem State.setInputs_out (s : State) (ws : List InputWord) : (s.setInputs ws).out = s.out := rfl

/-- Two states with the same fields are the same state. -/
theorem State.eq_of_fields {s t : State} (hcfg : s.cfg = t.cfg) (henc : s.enc = t.enc) (hbtn : s.btn = t.btn)
    (hin : s.inputs = t.inputs) (hout : s.out = t.out) : s = t := by
  cases s; cases t; simp_all

/-- The button registers exist in an instance with a button (R21). -/
theorem State.exists_btn {s : State} (h : s.cfg.hasButton = true) : ∃ b, s.btn = some b :=
  Option.isSome_iff_exists.1 (s.btn_present.trans h)

/-- They do not exist in an instance without one (R21). -/
theorem State.btn_eq_none {s : State} (h : s.cfg.hasButton = false) : s.btn = none :=
  Option.isNone_iff_eq_none.1 (by rw [← Option.not_isSome, s.btn_present, h]; rfl)

/-- Where they exist the instance has a button. -/
theorem State.hasButton_of_btn {s : State} {b : ButtonState} (h : s.btn = some b) : s.cfg.hasButton = true := by
  rw [← s.btn_present, h]; rfl

@[simp] theorem State.afterReset_cfg (cfg : Config) (a b btn : Bool) (now : Nat) :
    (State.afterReset cfg a b btn now).cfg = cfg := rfl
@[simp] theorem State.afterReset_enc (cfg : Config) (a b btn : Bool) (now : Nat) :
    (State.afterReset cfg a b btn now).enc
      = { previousSample := BitVec.ofBool a ++ BitVec.ofBool b, accumulatedSteps := 0 } := rfl
@[simp] theorem State.afterReset_btn (cfg : Config) (a b btn : Bool) (now : Nat) :
    (State.afterReset cfg a b btn now).btn
      = if cfg.hasButton then
          some { previousLevel := btn, lastTransitionTime := now, isHeld := btn == cfg.activeLevel }
        else none := rfl
@[simp] theorem State.afterReset_inputs (cfg : Config) (a b btn : Bool) (now : Nat) :
    (State.afterReset cfg a b btn now).inputs = [] := rfl
@[simp] theorem State.afterReset_out (cfg : Config) (a b btn : Bool) (now : Nat) :
    (State.afterReset cfg a b btn now).out = .c 0b00 false := rfl

end Sys2Proof.Machine
end

