-- ==== Sys2Proof/Laws/Ops.lean ====
section
/-! SUPPORT. One lemma per shared operation: everything it can do, for later proofs to cite. -/

namespace Sys2Proof.Machine

/-! ## The table -/

/-- A step is -1, 0 or +1. -/
theorem stepOf_cases (p c : Code) :
    (stepOf p c).toInt = -1 ∨ (stepOf p c).toInt = 0 ∨ (stepOf p c).toInt = 1 := by
  revert p c; decide

/-- The table holds no `0b10`. -/
theorem stepOf_ne_reserved (p c : Code) : stepOf p c ≠ 0b10 := by
  revert p c; decide

/-- A code against itself is no step. -/
@[simp] theorem stepOf_self (p : Code) : stepOf p p = 0b00 := by
  revert p; decide

/-- A code against its complement is no step. -/
@[simp] theorem stepOf_complement (p : Code) : stepOf p (~~~p) = 0b00 := by
  revert p; decide

/-! ## Arithmetic -/

/-- Two's complement of `w` bits changes no number in its range. -/
theorem wrapSigned_of_range {w : Nat} {z : Int} (hw : 0 < w) (hlo : -2 ^ (w - 1) ≤ z) (hhi : z < 2 ^ (w - 1)) :
    wrapSigned w z = z := by
  have h2 : (2 : Int) ^ w = 2 * 2 ^ (w - 1) := by
    obtain ⟨k, rfl⟩ : ∃ k, w = k + 1 := ⟨w - 1, by omega⟩
    simp [pow_succ]; omega
  rw [wrapSigned, BitVec.toInt_ofInt]
  apply Int.bmod_eq_of_le_mul_two <;> push_cast <;> omega

/-- THRESHOLD fits the signed register, so the register has at least two bits (R7). -/
theorem Config.threshold_lt (cfg : Config) : 2 ≤ cfg.accW ∧ (cfg.threshold : Int) < 2 ^ (cfg.accW - 1) := by
  have hp := cfg.threshold_pos
  have hf := cfg.threshold_fits
  refine ⟨?_, ?_⟩
  · by_contra h
    have : cfg.accW - 1 = 0 := by omega
    rw [this] at hf; simp at hf; omega
  · have h1 : (0 : Nat) < 2 ^ (cfg.accW - 1) := by positivity
    have h2 : cfg.threshold < 2 ^ (cfg.accW - 1) := by omega
    exact_mod_cast h2

/-- A sum at most THRESHOLD in magnitude does not wrap (R74). -/
theorem accumulate_of_bound (cfg : Config) (acc : Int) (step : Code2)
    (hlo : -(cfg.threshold : Int) ≤ acc + step.toInt) (hhi : acc + step.toInt ≤ cfg.threshold) :
    accumulate cfg acc step = acc + step.toInt := by
  obtain ⟨hw, ht⟩ := Config.threshold_lt cfg
  exact wrapSigned_of_range (by omega) (by omega) (by omega)

/-- The elapsed time as a remainder of natural numbers (R81). -/
theorem elapsed_eq_mod (cfg : Config) {now last : Nat} (hl : last < 2 ^ cfg.timeW) :
    elapsed cfg now last = (now + (2 ^ cfg.timeW - last)) % 2 ^ cfg.timeW := by
  simp only [elapsed, BitVec.toNat_sub, BitVec.toNat_ofNat]
  rw [Nat.mod_eq_of_lt hl, Nat.add_comm, Nat.mod_add_mod]

/-- The elapsed time fits a timestamp. -/
theorem elapsed_lt (cfg : Config) (now last : Nat) : elapsed cfg now last < 2 ^ cfg.timeW :=
  BitVec.isLt _

/-- A clock reading at the last acceptance itself is no time later. -/
@[simp] theorem elapsed_self (cfg : Config) (now : Nat) : elapsed cfg now now = 0 := by
  simp [elapsed]

/-! ## The event outputs and the stored count -/

/-- What a sum gives: an event either way with the count 0, or no event and the sum kept (R72). -/
theorem detent_cases (cfg : Config) (sum : Int) :
    ((cfg.threshold : Int) ≤ sum ∧ detentCode cfg sum = 0b01 ∧ storedSteps cfg sum = 0)
    ∨ (sum ≤ -(cfg.threshold : Int) ∧ detentCode cfg sum = 0b11 ∧ storedSteps cfg sum = 0)
    ∨ (-(cfg.threshold : Int) < sum ∧ sum < cfg.threshold ∧ detentCode cfg sum = 0b00 ∧ storedSteps cfg sum = sum) := by
  have hp : (1 : Int) ≤ cfg.threshold := by exact_mod_cast cfg.threshold_pos
  simp only [detentCode, storedSteps, reachesClockwise, reachesCounterClockwise, decide_eq_true_eq]
  by_cases h1 : (cfg.threshold : Int) ≤ sum
  · simp [h1]
  · by_cases h2 : sum ≤ -(cfg.threshold : Int)
    · simp [h1, h2]
    · simp [h1, h2]; omega

/-- No event code is `0b10`. -/
theorem detentCode_ne_reserved (cfg : Config) (sum : Int) : detentCode cfg sum ≠ 0b10 := by
  rcases detent_cases cfg sum with h | h | h
  · rw [h.2.1]; decide
  · rw [h.2.1]; decide
  · rw [h.2.2.1]; decide

/-- The stored count is always inside the range (R25), whatever the sum. -/
theorem storedSteps_inv (cfg : Config) (sum : Int) :
    -(cfg.threshold : Int) < storedSteps cfg sum ∧ storedSteps cfg sum < cfg.threshold := by
  have hp : (1 : Int) ≤ cfg.threshold := by exact_mod_cast cfg.threshold_pos
  rcases detent_cases cfg sum with h | h | h
  · rw [h.2.2]; omega
  · rw [h.2.2]; omega
  · rw [h.2.2.2]; exact ⟨h.1, h.2.1⟩

/-! ## The module updates -/

/-- A loaded accumulator is in range. -/
theorem EncoderState.load_inv (cfg : Config) (sample : Code) : (EncoderState.load sample).Inv cfg := by
  have hp : (1 : Int) ≤ cfg.threshold := by exact_mod_cast cfg.threshold_pos
  constructor <;> simp [EncoderState.load] <;> omega

/-- A polled accumulator is in range. -/
theorem EncoderState.poll_inv (cfg : Config) (e : EncoderState) (sample : Code) : (e.poll cfg sample).Inv cfg :=
  storedSteps_inv cfg (e.sum cfg sample)

@[simp] theorem EncoderState.poll_previousSample (cfg : Config) (e : EncoderState) (sample : Code) :
    (e.poll cfg sample).previousSample = sample := rfl

/-- A poll of the debouncer either accepts the change and writes all three registers, or leaves them (R80). -/
theorem ButtonState.poll_cases (cfg : Config) (b : ButtonState) (raw : Bool) (now : Nat) :
    (raw ≠ b.previousLevel ∧ cfg.debounceTicks ≤ elapsed cfg now b.lastTransitionTime ∧ accepts cfg b raw now = true
      ∧ b.poll cfg raw now = ButtonState.load cfg raw now
      ∧ b.event cfg raw now = (pressed cfg raw && !b.isHeld))
    ∨ ((raw = b.previousLevel ∨ elapsed cfg now b.lastTransitionTime < cfg.debounceTicks) ∧ accepts cfg b raw now = false
      ∧ b.poll cfg raw now = b ∧ b.event cfg raw now = false) := by
  by_cases h : accepts cfg b raw now = true
  · left
    have h' := h
    simp only [accepts, Bool.and_eq_true, bne_iff_ne, ne_eq, decide_eq_true_eq] at h'
    refine ⟨h'.1, h'.2, h, ?_, ?_⟩
    · simp [ButtonState.poll, h, ButtonState.load, heldOnAccept]
    · simp [ButtonState.event, h, pressOnAccept]
  · right
    have h0 : accepts cfg b raw now = false := by simpa using h
    refine ⟨?_, h0, by simp [ButtonState.poll, h0], by simp [ButtonState.event, h0]⟩
    simp only [accepts, Bool.and_eq_false_iff, decide_eq_false_iff_not, not_le, bne_eq_false_iff_eq] at h0
    exact h0

/-- A loaded debouncer mirrors its level. -/
theorem ButtonState.load_inv (cfg : Config) (raw : Bool) {now : Nat} (hn : now < 2 ^ cfg.timeW) :
    (ButtonState.load cfg raw now).Inv cfg := ⟨hn, rfl⟩

/-- A polled debouncer mirrors its level if it did before. -/
theorem ButtonState.poll_inv (cfg : Config) (b : ButtonState) (raw : Bool) {now : Nat} (hb : b.Inv cfg)
    (hn : now < 2 ^ cfg.timeW) : (b.poll cfg raw now).Inv cfg := by
  rcases b.poll_cases cfg raw now with h | h
  · rw [h.2.2.2.1]; exact ButtonState.load_inv cfg raw hn
  · rw [h.2.2.1]; exact hb

/-! ## The pending words -/

@[simp] theorem fetch_nil (s : State) (h : s.inputs = []) : fetch s = Option.none := by
  simp [fetch, h]

@[simp] theorem fetch_cons (s : State) (w : InputWord) (rest : List InputWord) (h : s.inputs = w :: rest) :
    fetch s = some (w, s.setInputs rest) := by
  simp [fetch, h]

/-- A placed word is the one the next step takes. -/
@[simp] theorem fetch_placeWord (s : State) (w : InputWord) :
    fetch (placeWord s w) = some (w, s.setInputs s.inputs.tail) := by
  simp [fetch, placeWord, State.setInputs]

end Sys2Proof.Machine
end

