-- ==== Sys2Proof/Laws/Exec.lean ====
section
/-! SUPPORT. What one operation does, said once: the next accumulator registers, the next debouncer registers and the
outputs as functions of the operation and of the registers before it. Later proofs cite `exec_eq`. -/

namespace Sys2Proof.Machine

/-- The accumulator registers after an operation. -/
def encAfter (cfg : Config) (e : EncoderState) : Instr → EncoderState
  | .dReset _ sample => EncoderState.load sample
  | .dPoll sample => e.poll cfg sample
  | .reset _ a b _ _ => EncoderState.load (sampleOf a b)
  | .poll a b _ _ => e.poll cfg (sampleOf a b)
  | _ => e

/-- The debouncer registers after an operation, where they exist. -/
def btnAfter (cfg : Config) (btn : Option ButtonState) : Instr → Option ButtonState
  | .bReset _ raw now => btn.map fun _ => ButtonState.load cfg raw now
  | .bPoll raw now => btn.map fun b => b.poll cfg raw now
  | .reset _ _ _ raw now => btn.map fun _ => ButtonState.load cfg raw now
  | .poll _ _ raw now => btn.map fun b => b.poll cfg raw now
  | _ => btn

/-- No operation makes the button registers appear or disappear. -/
@[simp] theorem btnAfter_isSome (cfg : Config) (btn : Option ButtonState) (i : Instr) :
    (btnAfter cfg btn i).isSome = btn.isSome := by
  cases i <;> simp [btnAfter]

/-- The pair of codes a DECODE or one of its rows looks up. -/
def decodePair : Instr → Code × Code
  | .decode prev cur => (prev, cur)
  | .decode_00_00 => (0b00, 0b00)
  | .decode_00_01 => (0b00, 0b01)
  | .decode_00_10 => (0b00, 0b10)
  | .decode_00_11 => (0b00, 0b11)
  | .decode_01_00 => (0b01, 0b00)
  | .decode_01_01 => (0b01, 0b01)
  | .decode_01_10 => (0b01, 0b10)
  | .decode_01_11 => (0b01, 0b11)
  | .decode_10_00 => (0b10, 0b00)
  | .decode_10_01 => (0b10, 0b01)
  | .decode_10_10 => (0b10, 0b10)
  | .decode_10_11 => (0b10, 0b11)
  | .decode_11_00 => (0b11, 0b00)
  | .decode_11_01 => (0b11, 0b01)
  | .decode_11_10 => (0b11, 0b10)
  | .decode_11_11 => (0b11, 0b11)
  | _ => (0b00, 0b00)

/-- The output ports during an operation. -/
def outDuring (cfg : Config) (e : EncoderState) (btn : Option ButtonState) : Instr → Output
  | .dReset _ _ => .d 0b00
  | .dPoll sample => .d (e.event cfg sample)
  | .dIdle _ => .d 0b00
  | .bReset _ _ _ => .b false
  | .bPoll raw now => .b (btn.any fun b => b.event cfg raw now)
  | .bIdle _ _ => .b false
  | .reset _ _ _ _ _ => .c 0b00 false
  | .poll a b raw now => .c (e.event cfg (sampleOf a b)) (btn.any fun r => r.event cfg raw now)
  | .idle _ _ _ _ => .c 0b00 false
  | i => .q (stepOf (decodePair i).1 (decodePair i).2)

/-- The one next state of an operation whose module the instance has. -/
def after (i : Instr) (s : State) : State :=
  { s with
    enc := encAfter s.cfg s.enc i
    btn := btnAfter s.cfg s.btn i
    out := outDuring s.cfg s.enc s.btn i
    btn_present := by rw [btnAfter_isSome, s.btn_present] }

/-- An outcome is the next state with these fields. -/
theorem next_eq_of_fields {s t : State} (hcfg : s.cfg = t.cfg) (henc : s.enc = t.enc) (hbtn : s.btn = t.btn)
    (hin : s.inputs = t.inputs) (hout : s.out = t.out) :
    (.next s : Host.Outcome State Fault Refusal) = .next t :=
  congrArg _ (State.eq_of_fields hcfg henc hbtn hin hout)

/-- The debouncer's operations, by the registers found. -/
theorem withDebouncer_some {s : State} {b : ButtonState} (h : s.btn = some b) (f : ButtonState → State) :
    withDebouncer s f = .next (f b) := by
  simp [withDebouncer, h]

theorem withDebouncer_none {s : State} (h : s.btn = none) (f : ButtonState → State) :
    withDebouncer s f = .refused .noDebouncer := by
  simp [withDebouncer, h]

/-- Only the debouncer can be absent. -/
theorem hasModule_of_ne {s : State} {f : Format} (h : f ≠ .b) : s.hasModule f = true := by
  cases f <;> first | rfl | exact absurd rfl h

/-- What an operation can do: with its module there, its one next state. -/
theorem exec_eq (i : Instr) (s : State) (h : s.hasModule i.format = true) : exec i s = .next (after i s) := by
  cases i
  case bReset tick raw now =>
    obtain ⟨b, hb⟩ := State.exists_btn h
    exact withDebouncer_some hb _
  case bPoll raw now =>
    obtain ⟨b, hb⟩ := State.exists_btn h
    exact (withDebouncer_some hb _).trans
      (next_eq_of_fields rfl rfl (by simp [after, btnAfter, hb]) rfl (by simp [after, outDuring, hb]))
  case bIdle raw now =>
    obtain ⟨b, hb⟩ := State.exists_btn h
    exact withDebouncer_some hb _
  all_goals rfl

/-- Without its module it is refused by name. -/
theorem exec_absent (i : Instr) (s : State) (h : s.hasModule i.format = false) :
    exec i s = .refused .noDebouncer := by
  cases i
  case bReset tick raw now => exact withDebouncer_none (State.btn_eq_none h) _
  case bPoll raw now => exact withDebouncer_none (State.btn_eq_none h) _
  case bIdle raw now => exact withDebouncer_none (State.btn_eq_none h) _
  all_goals cases h

/-- The one next state, inverted. -/
theorem eq_after_of_exec {i : Instr} {s t : State} (h : exec i s = .next t) :
    t = after i s ∧ s.hasModule i.format = true := by
  cases hm : s.hasModule i.format with
  | true => rw [exec_eq i s hm] at h; exact ⟨(Host.Outcome.next.inj h).symm, rfl⟩
  | false => rw [exec_absent i s hm] at h; cases h

@[simp] theorem after_cfg (i : Instr) (s : State) : (after i s).cfg = s.cfg := rfl
@[simp] theorem after_enc (i : Instr) (s : State) : (after i s).enc = encAfter s.cfg s.enc i := rfl
@[simp] theorem after_btn (i : Instr) (s : State) : (after i s).btn = btnAfter s.cfg s.btn i := rfl
@[simp] theorem after_inputs (i : Instr) (s : State) : (after i s).inputs = s.inputs := rfl
@[simp] theorem after_out (i : Instr) (s : State) : (after i s).out = outDuring s.cfg s.enc s.btn i := rfl
@[simp] theorem after_hasModule (i : Instr) (s : State) (f : Format) : (after i s).hasModule f = s.hasModule f := by
  cases f <;> rfl

/-! ## Runs -/

@[simp] theorem runOps_nil (s : State) : runOps [] s = some ([], s) := rfl

/-- A run's first operation, then the rest from its next state. -/
theorem runOps_cons (i : Instr) (rest : List Instr) (s : State) (h : s.hasModule i.format = true) :
    runOps (i :: rest) s = (runOps rest (after i s)).map fun r => ((after i s).out :: r.1, r.2) := by
  simp [runOps, exec_eq i s h]

/-- A run stops at an operation whose module is absent. -/
theorem runOps_cons_absent (i : Instr) (rest : List Instr) (s : State) (h : s.hasModule i.format = false) :
    runOps (i :: rest) s = none := by
  simp [runOps, exec_absent i s h]

/-- A run of two parts is the second from the last state of the first. -/
theorem runOps_append (ops more : List Instr) (s : State) :
    runOps (ops ++ more) s
      = (runOps ops s).bind fun r => (runOps more r.2).map fun q => (r.1 ++ q.1, q.2) := by
  induction ops generalizing s with
  | nil => simp
  | cons i rest ih =>
    cases hm : s.hasModule i.format with
    | false => rw [List.cons_append, runOps_cons_absent i _ s hm, runOps_cons_absent i _ s hm]; rfl
    | true =>
      rw [List.cons_append, runOps_cons i _ s hm, runOps_cons i _ s hm, ih]
      cases runOps rest (after i s) with
      | none => rfl
      | some r => simp only [Option.bind_some, Option.map_some]; cases runOps more r.2 <;> rfl

/-- A run of operations whose modules the instance has completes, with one output per operation, and changes neither the
parameters nor the pending words. -/
theorem runOps_completes (ops : List Instr) (s : State) (h : ∀ i ∈ ops, s.hasModule i.format = true) :
    ∃ outs t, runOps ops s = some (outs, t) ∧ outs.length = ops.length ∧ t.cfg = s.cfg ∧ t.inputs = s.inputs := by
  induction ops generalizing s with
  | nil => exact ⟨[], s, rfl, rfl, rfl, rfl⟩
  | cons i rest ih =>
    obtain ⟨outs, t, hrun, hlen, hcfg, hin⟩ := ih (after i s) fun j hj => by
      rw [after_hasModule]; exact h j (List.mem_cons_of_mem _ hj)
    exact ⟨_, t, by rw [runOps_cons i _ s (h i List.mem_cons_self), hrun]; rfl, by simp [hlen], hcfg, hin⟩

@[simp] theorem acceptedReleases_nil (s : State) : acceptedReleases [] s = 0 := rfl

/-- The releases of a run: the first operation's, then the rest's. -/
theorem acceptedReleases_cons (i : Instr) (rest : List Instr) (s : State) (h : s.hasModule i.format = true) :
    acceptedReleases (i :: rest) s
      = (s.pressedLevel && !(after i s).pressedLevel).toNat + acceptedReleases rest (after i s) := by
  simp [acceptedReleases, exec_eq i s h]

/-! ## One step -/

/-- What a step can do: stop for want of a word, stop at a number that is no word, stop at a word of an absent debouncer,
or run the operation decoded from the first pending word on the state that waits for the next one. -/
theorem step_cases (s : State) :
    (s.inputs = [] ∧ step s = .refused .noInputWord)
    ∨ ∃ w rest, s.inputs = w :: rest ∧
      ((∃ e, decode s.cfg w.format w.bits = .error e ∧ step s = .refused (.notAWord e))
      ∨ (∃ i, decode s.cfg w.format w.bits = .ok i ∧ s.hasModule i.format = false ∧ step s = .refused .noDebouncer)
      ∨ ∃ i, decode s.cfg w.format w.bits = .ok i ∧ s.hasModule i.format = true
          ∧ step s = .next (after i (s.setInputs rest))) := by
  cases hin : s.inputs with
  | nil => exact .inl ⟨rfl, by simp [step, hin]⟩
  | cons w rest =>
    refine .inr ⟨w, rest, rfl, ?_⟩
    cases hd : decode s.cfg w.format w.bits with
    | error e => exact .inl ⟨e, rfl, by simp [step, fetch_cons s w rest hin, hd]⟩
    | ok i =>
      have hs : step s = exec i (s.setInputs rest) := by simp [step, fetch_cons s w rest hin, hd]
      have hw : (s.setInputs rest).hasModule i.format = s.hasModule i.format := by cases i.format <;> rfl
      cases hm : s.hasModule i.format with
      | false => exact .inr (.inl ⟨i, rfl, hm, hs.trans (exec_absent i _ (hw.trans hm))⟩)
      | true => exact .inr (.inr ⟨i, rfl, hm, hs.trans (exec_eq i _ (hw.trans hm))⟩)

end Sys2Proof.Machine
end

