-- ==== Sys2Proof/Laws/PerInstr.lean ====
section
/-! SUPPORT. The family WordFits, one lemma per constructor of Instr: the word of a well-formed instruction fits the width
of its format. -/

namespace Sys2Proof.Laws.WordFits

/-- The word of the instruction fits its format, on every instance the instruction is well formed for (R57). -/
def Statement (i : Instr) : Prop :=
  ∀ cfg : Config, i.wf cfg = true → encode cfg i < 2 ^ i.format.width cfg

theorem decode (prev cur : Code) : Statement (.decode prev cur) :=
  fun _ _ => wordQ_lt prev cur

theorem decode_00_00 : Statement .decode_00_00 :=
  fun _ _ => wordQ_lt 0b00 0b00

theorem decode_00_01 : Statement .decode_00_01 :=
  fun _ _ => wordQ_lt 0b00 0b01

theorem decode_00_10 : Statement .decode_00_10 :=
  fun _ _ => wordQ_lt 0b00 0b10

theorem decode_00_11 : Statement .decode_00_11 :=
  fun _ _ => wordQ_lt 0b00 0b11

theorem decode_01_00 : Statement .decode_01_00 :=
  fun _ _ => wordQ_lt 0b01 0b00

theorem decode_01_01 : Statement .decode_01_01 :=
  fun _ _ => wordQ_lt 0b01 0b01

theorem decode_01_10 : Statement .decode_01_10 :=
  fun _ _ => wordQ_lt 0b01 0b10

theorem decode_01_11 : Statement .decode_01_11 :=
  fun _ _ => wordQ_lt 0b01 0b11

theorem decode_10_00 : Statement .decode_10_00 :=
  fun _ _ => wordQ_lt 0b10 0b00

theorem decode_10_01 : Statement .decode_10_01 :=
  fun _ _ => wordQ_lt 0b10 0b01

theorem decode_10_10 : Statement .decode_10_10 :=
  fun _ _ => wordQ_lt 0b10 0b10

theorem decode_10_11 : Statement .decode_10_11 :=
  fun _ _ => wordQ_lt 0b10 0b11

theorem decode_11_00 : Statement .decode_11_00 :=
  fun _ _ => wordQ_lt 0b11 0b00

theorem decode_11_01 : Statement .decode_11_01 :=
  fun _ _ => wordQ_lt 0b11 0b01

theorem decode_11_10 : Statement .decode_11_10 :=
  fun _ _ => wordQ_lt 0b11 0b10

theorem decode_11_11 : Statement .decode_11_11 :=
  fun _ _ => wordQ_lt 0b11 0b11

theorem dReset (tick : Bool) (sample : Code) : Statement (.dReset tick sample) :=
  fun _ _ => wordD_lt true tick sample

theorem dPoll (sample : Code) : Statement (.dPoll sample) :=
  fun _ _ => wordD_lt false true sample

theorem dIdle (sample : Code) : Statement (.dIdle sample) :=
  fun _ _ => wordD_lt false false sample

theorem bReset (tick : Bool) (raw : Bool) (now : Nat) : Statement (.bReset tick raw now) :=
  fun cfg h => wordB_lt cfg true tick raw (of_decide_eq_true h)

theorem bPoll (raw : Bool) (now : Nat) : Statement (.bPoll raw now) :=
  fun cfg h => wordB_lt cfg false true raw (of_decide_eq_true h)

theorem bIdle (raw : Bool) (now : Nat) : Statement (.bIdle raw now) :=
  fun cfg h => wordB_lt cfg false false raw (of_decide_eq_true h)

theorem reset (tick : Bool) (a b btn : Bool) (now : Nat) : Statement (.reset tick a b btn now) :=
  fun cfg h => wordC_lt cfg true tick a b btn (of_decide_eq_true h)

theorem poll (a b btn : Bool) (now : Nat) : Statement (.poll a b btn now) :=
  fun cfg h => wordC_lt cfg false true a b btn (of_decide_eq_true h)

theorem idle (a b btn : Bool) (now : Nat) : Statement (.idle a b btn now) :=
  fun cfg h => wordC_lt cfg false false a b btn (of_decide_eq_true h)

end Sys2Proof.Laws.WordFits
end

