-- ==== Sys2Proof/Tests/Slice0.lean ====
section
/-! SUPPORT. Small tests with expected values written out from the spec (95 and 96, the worked examples of 40 to 43, the
patterns of R49), the smoke test of WellFormed, and a witness for the hypotheses of every statement that has some. -/

namespace Sys2Proof.Tests

open Sys2Proof.Machine

/-! ## Helpers -/

/-- The reference instance with these registers. -/
def at5 (ps : Code) (acc : Int) (pl : Bool) (ltt : Nat) (held : Bool) : State :=
  { State.reset with
    enc := { previousSample := ps, accumulatedSteps := acc }
    btn := some { previousLevel := pl, lastTransitionTime := ltt, isHeld := held }
    btn_present := rfl }

/-- The same registers in another instance with a button. -/
def on (cfg : Config) (h : cfg.hasButton = true) (ps : Code) (acc : Int) (pl : Bool) (ltt : Nat) (held : Bool) : State :=
  { at5 ps acc pl ltt held with cfg := cfg, btn_present := h.symm }

/-- A row of the spec's vector tables: the output word and the registers after the cycle. -/
structure Row where
  word : Nat
  ps : Code
  acc : Int
  btn : Option ButtonState
  deriving DecidableEq, Repr

/-- A row of an instance with a button. -/
def row (word : Nat) (ps : Code) (acc : Int) (pl : Bool) (ltt : Nat) (held : Bool) : Option Row :=
  some { word := word, ps := ps, acc := acc, btn := some (.mk pl ltt held) }

/-- One step with one input word. -/
def cycle (s : State) (format : Format) (bits : Nat) : Option Row :=
  match step (s.setInputs [InputWord.mk format bits]) with
  | .next t =>
    some { word := t.out.word, ps := t.enc.previousSample, acc := t.enc.accumulatedSteps, btn := t.btn }
  | .fault _ => none
  | .refused _ => none

/-- The next state of an operation. -/
def nextOf (i : Instr) (s : State) : Option State :=
  match exec i s with
  | .next t => some t
  | .fault _ => none
  | .refused _ => none

/-- The instruction a word decodes to on the reference instance. -/
def read (format : Format) (bits : Nat) : Option Instr :=
  match decode Config.reference format bits with
  | .ok i => some i
  | .error _ => none

/-- Whether elaboration is refused under this name. -/
def refusedAs (e : ParamError) (r : Except ParamError Config) : Bool :=
  match r with
  | .error e' => e == e'
  | .ok _ => false

/-- Why a step stops, if it does. -/
def stopOf (s : State) : Option Refusal :=
  match step s with
  | .refused r => some r
  | .fault _ => none
  | .next _ => none

/-- An instance with `THRESHOLD = 1`. -/
def oneStep : Config :=
  { Config.reference with threshold := 1, threshold_pos := by decide, threshold_fits := by decide }

/-- An instance with `ACTIVE_LEVEL = 1`. -/
def activeHigh : Config := { Config.reference with activeLevel := true }

/-- An instance with `DEBOUNCE_TICKS = 0`. -/
def noWindow : Config := { Config.reference with debounceTicks := 0, debounce_fits := by decide }

/-- An instance with `HAS_BUTTON = false`. -/
def noButton : Config := { Config.reference with hasButton := false }

/-- An instance without a button, with these registers. -/
def bare (ps : Code) (acc : Int) : State :=
  { State.afterReset noButton false false true 0 with enc := { previousSample := ps, accumulatedSteps := acc } }

/-- An instance with `ACC_W = 4`, the least the reference THRESHOLD allows (R7). -/
def narrow : Config := { Config.reference with accW := 4, threshold_fits := by decide }

/-! ## WellFormed -/

theorem test_wf_b_reset : (Instr.bReset false true 0x100000000).wf Config.reference = false := by decide
theorem test_wf_b_poll : (Instr.bPoll true 0x100000000).wf Config.reference = false := by decide
theorem test_wf_b_idle : (Instr.bIdle true 0x100000000).wf Config.reference = false := by decide
theorem test_wf_reset : (Instr.reset false true true true 0x100000000).wf Config.reference = false := by decide
theorem test_wf_poll : (Instr.poll true true true 0x100000000).wf Config.reference = false := by decide
theorem test_wf_idle : (Instr.idle true true true 0x100000000).wf Config.reference = false := by decide

/-- The greatest timestamp is one. -/
theorem test_wf_greatest_timestamp : (Instr.poll true true true 0xFFFFFFFF).wf Config.reference = true := by decide

/-- A word with one bit too many, in each format. -/
theorem test_wf_words :
    (InputWord.mk .q 0x10).wf Config.reference = false ∧ (InputWord.mk .d 0x10).wf Config.reference = false
    ∧ (InputWord.mk .b 0x800000000).wf Config.reference = false
    ∧ (InputWord.mk .c 0x2000000000).wf Config.reference = false := by decide

/-- Every illegal parameter is refused by name (U2). -/
theorem test_illegal_parameters :
    refusedAs .threshold (Params.elaborate { Params.reference with threshold := 0 })
    ∧ refusedAs .threshold (Params.elaborate { Params.reference with threshold := -4 })
    ∧ refusedAs .accW (Params.elaborate { Params.reference with accW := 3 })
    ∧ refusedAs .timeW (Params.elaborate { Params.reference with timeW := 0 })
    ∧ refusedAs .debounceTicks (Params.elaborate { Params.reference with debounceTicks := 0x100000000 })
    ∧ refusedAs .activeLevel (Params.elaborate { Params.reference with activeLevel := 2 }) := by decide

/-! ## Decoding: words written out from the patterns of R49 -/

/-- Format Q, `ppcc`: the 16 rows. -/
theorem test_decode_q :
    [0b0000, 0b0001, 0b0010, 0b0011, 0b0100, 0b0101, 0b0110, 0b0111].map (read .q)
      = [some .decode_00_00, some .decode_00_01, some .decode_00_10, some .decode_00_11,
         some .decode_01_00, some .decode_01_01, some .decode_01_10, some .decode_01_11]
    ∧ [0b1000, 0b1001, 0b1010, 0b1011, 0b1100, 0b1101, 0b1110, 0b1111].map (read .q)
      = [some .decode_10_00, some .decode_10_01, some .decode_10_10, some .decode_10_11,
         some .decode_11_00, some .decode_11_01, some .decode_11_10, some .decode_11_11] := by decide

/-- DECODE with its operands has the word of its row: `DECODE 1 3` is `0b0111`. -/
theorem test_encode_decode :
    encode Config.reference (.decode 1 3) = 0b0111 ∧ (Instr.decode 1 3).canonical = .decode_01_11 := by decide

/-- Format D, `1tss`, `01ss`, `00ss`. -/
theorem test_decode_d :
    read .d 0b1011 = some (.dReset false 3) ∧ read .d 0b1110 = some (.dReset true 2)
    ∧ read .d 0b0110 = some (.dPoll 2) ∧ read .d 0b0001 = some (.dIdle 1) := by decide

/-- Format B, `1tr n*32`, `01r n*32`, `00r n*32`. -/
theorem test_decode_b :
    read .b 0x5000003E8 = some (.bReset false true 1000) ∧ read .b 0x600000000 = some (.bReset true false 0)
    ∧ read .b 0x200007530 = some (.bPoll false 30000) ∧ read .b 0x1FFFFFFFF = some (.bIdle true 0xFFFFFFFF) := by decide

/-- Format C, `1tabp n*32`, `01abp n*32`, `00abp n*32`; V-C1's word has both control bits set. -/
theorem test_decode_c :
    read .c 0x1100000000 = some (.reset false false false true 0)
    ∧ read .c 0x1800000000 = some (.reset true false false false 0)
    ∧ read .c 0x0D000F7120 = some (.poll true false true 1012000)
    ∧ read .c 0x0200000007 = some (.idle false true false 7) := by decide

/-- A number one bit too wide is a word of no format (log 5). -/
theorem test_decode_too_wide :
    read .q 0x10 = none ∧ read .d 0x10 = none ∧ read .b 0x800000000 = none ∧ read .c 0x2000000000 = none := by decide

/-- The host's table words (log 11). -/
theorem test_decode_table_words :
    decodeTableWord 8 0x7 = some .decode_01_11 ∧ decodeTableWord 40 0x200007530 = some (.bPoll false 30000)
    ∧ decodeTableWord 40 0x08000061A8 = some (.poll false false false 25000)
    ∧ decodeTableWord 40 0x1100000000 = some (.reset false false false true 0) := by decide

/-- The assembler's ignored fields are 0, and a long timestamp is cut (R58, R59). -/
theorem test_lines :
    (Line.poll 2 true 1012000).word Config.reference = ⟨.c, 0x0D000F7120⟩
    ∧ (Line.bPoll false 0x100001770).word Config.reference = ⟨.b, 0x200001770⟩
    ∧ (Pseudo.bSeq 0 10000 true [true, false]).expand Config.reference
        = [.bReset true 0, .bPoll true 10000, .bPoll false 20000]
    ∧ (Pseudo.rot 2 7).expand Config.reference = [.poll 2 true 7] := by decide

/-! ## One cycle at a time -/

/-- V-Q: the steps of the 16 words, the registers untouched. -/
theorem test_decode_steps :
    (List.range 16).map (fun w => (cycle (at5 2 3 true 5 false) .q w).map Row.word)
      = [some 0, some 1, some 3, some 0, some 3, some 0, some 0, some 1,
         some 1, some 0, some 0, some 3, some 0, some 3, some 1, some 0]
    ∧ cycle (at5 2 3 true 5 false) .q 0b0001 = row 1 2 3 true 5 false := by decide

/-- DECODE with operands: `DECODE 2 3` is -1 (V-Q). -/
theorem test_decode_operands : (nextOf (.decode 2 3) State.reset).map State.out = some (.q 0b11) := by decide

/-- R68: `D_RESET 3`, from pending steps; and with `tick = 1` no event. -/
theorem test_d_reset :
    cycle (at5 2 3 true 5 false) .d 0b1011 = row 0 3 0 true 5 false
    ∧ cycle (at5 2 3 true 5 false) .d 0b1100 = row 0 0 0 true 5 false := by decide

/-- R69: `D_IDLE` with 2 and -3; the sample bits are ignored. -/
theorem test_d_idle :
    cycle (at5 2 (-3) true 5 false) .d 0b0000 = row 0 2 (-3) true 5 false
    ∧ cycle (at5 2 (-3) true 5 false) .d 0b0011 = row 0 2 (-3) true 5 false := by decide

/-- R72: the clockwise event; S3: the counter-clockwise one. -/
theorem test_d_poll_events :
    cycle (at5 2 3 true 5 false) .d 0b0100 = row 1 0 0 true 5 false
    ∧ cycle (at5 1 (-3) true 5 false) .d 0b0100 = row 3 0 0 true 5 false := by decide

/-- S4: an illegal jump keeps the count and takes the code; V-D5: THRESHOLD = 1. -/
theorem test_d_poll_corners :
    cycle (at5 2 3 true 5 false) .d 0b0101 = row 0 1 3 true 5 false
    ∧ cycle (on oneStep rfl 0 0 true 5 false) .d 0b0110 = row 3 2 0 true 5 false := by decide

/-- R78: `B_RESET 1 1000`; V-B9: with ACTIVE_LEVEL = 1 the same level is pressed. -/
theorem test_b_reset :
    cycle (at5 2 3 false 5 true) .b 0x5000003E8 = row 0 2 3 true 1000 false
    ∧ cycle (on activeHigh rfl 2 3 false 5 false) .b 0x500000000 = row 0 2 3 true 0 true := by decide

/-- R79: a level that would be accepted is ignored in an idle cycle. -/
theorem test_b_idle : cycle (at5 2 3 true 0 false) .b 0x0000FFFFF = row 0 2 3 true 0 false := by decide

/-- R80's example and V-B2: 19999 rejects, 20000 accepts. -/
theorem test_b_poll_boundary :
    cycle (at5 2 3 true 0 false) .b 0x200007530 = row 1 2 3 false 30000 true
    ∧ cycle (at5 2 3 true 1000 false) .b 0x200005207 = row 0 2 3 true 1000 false
    ∧ cycle (at5 2 3 true 1000 false) .b 0x200005208 = row 1 2 3 false 21000 true := by decide

/-- V-B6 (the clock wraps), V-B8 (it runs backwards), V-B10 (no window), V-B3 (a release), R85 (held already). -/
theorem test_b_poll_corners :
    cycle (at5 2 3 true 4294963200 false) .b 0x200000100 = row 0 2 3 true 4294963200 false
    ∧ cycle (at5 2 3 true 4294963200 false) .b 0x200004000 = row 1 2 3 false 16384 true
    ∧ cycle (at5 2 3 true 50000 false) .b 0x20000BF68 = row 1 2 3 false 49000 true
    ∧ cycle (on noWindow rfl 2 3 false 1 true) .b 0x300000002 = row 0 2 3 true 2 false
    ∧ cycle (at5 2 3 false 0 true) .b 0x30000C350 = row 0 2 3 true 50000 false
    ∧ cycle (at5 2 3 true 0 true) .b 0x200007530 = row 0 2 3 false 30000 true := by decide

/-- R94's example, and V-C1: `rst` wins over `tick`. -/
theorem test_reset :
    cycle (at5 2 3 false 5 true) .c 0x1100000000 = row 0 0 0 true 0 false
    ∧ cycle (at5 2 3 true 5 false) .c 0x1800000000 = row 0 0 0 false 0 true := by decide

/-- R95's example (both events, word 3) and cycle 5 of P3 (word 7). -/
theorem test_poll :
    cycle (at5 2 3 true 0 false) .c 0x08000061A8 = row 3 0 0 false 25000 true
    ∧ cycle (at5 2 (-3) true 1000000 false) .c 0x0E000F9060 = row 7 3 0 false 1020000 true := by decide

/-- R96: cycle 4 of P2. -/
theorem test_idle : cycle (at5 2 3 true 0 false) .c 0x0000000000 = row 0 2 3 true 0 false := by decide

/-- V-C3: without a button, cycles 4 and 0: no press and no button register. -/
theorem test_without_a_button :
    cycle (bare 2 3) .c 0x0900000000 = some ⟨2, 0, 0, none⟩ ∧ cycle (bare 2 3) .c 0x1000000000 = some ⟨0, 0, 0, none⟩
    ∧ readRegister (bare 2 3) .isHeld = none ∧ readRegister (bare 2 3) .accumulatedSteps = some 3 := by decide

/-- R21: there is no debouncer to take a format B word, here `B_POLL 0 30000` and `B_RESET 1 1000` (log 8). -/
theorem test_absent_debouncer :
    stopOf ((bare 2 3).setInputs [⟨.b, 0x200007530⟩]) = some .noDebouncer
    ∧ stopOf ((bare 2 3).setInputs [⟨.b, 0x5000003E8⟩]) = some .noDebouncer := by decide

/-- The host's word is the one the next step runs; without a word the step stops by name. -/
theorem test_step_runs_the_placed_word :
    cycle State.reset .c 0x0B000003E8 = row 0 1 1 true 0 false
    ∧ step (State.reset.withFetchWord 40 0x0B000003E8) = step (State.reset.setInputs [⟨.c, 0x0B000003E8⟩])
    ∧ stopOf State.reset = some .noInputWord
    ∧ stopOf (State.reset.withFetchWord 8 0x10) = some (.notAWord (.tooWide .q 0x10)) :=
  ⟨by decide, rfl, by decide, by decide⟩

/-! ## Witnesses: values that meet the hypotheses of the statements -/

/-- A released debouncer that was loaded at 0. -/
def released : ButtonState := { previousLevel := true, lastTransitionTime := 0, isHeld := false }

theorem released_inv : released.Inv Config.reference := ⟨by decide, by decide⟩

theorem reset_inv : State.reset.Inv :=
  ⟨⟨by decide, by decide⟩, fun b h => by cases h; exact released_inv, by show (0b00 : Code2) ≠ 0b10; decide⟩

/-- A timestamp at either end of its range. -/
theorem witness_FormatsPlaceTheirFields : 0 < 2 ^ Config.reference.timeW ∧ 0xFFFFFFFF < 2 ^ Config.reference.timeW := by
  decide

/-- The bounds of the four formats, each met by its least and its greatest word. -/
theorem witness_MatchAndMaskSelectTheOperation :
    0xF < 2 ^ 4 ∧ 0x7FFFFFFFF < 2 ^ 35 ∧ 0x1FFFFFFFFF < 2 ^ 37 := by decide

theorem witness_DecodeOfEncodeIsTheInstruction :
    (Instr.poll true false true 0xFFFFFFFF).wf Config.reference = true
    ∧ ∀ prev cur, Instr.poll true false true 0xFFFFFFFF ≠ .decode prev cur :=
  ⟨by decide, fun _ _ h => by cases h⟩

theorem witness_EncodeOfDecodeIsTheWord :
    decode Config.reference .c 0x1FFFFFFFFF = .ok (.reset true true true true 0xFFFFFFFF) := by rfl

theorem witness_FirstSampleMayBeAResetOrAPoll :
    (at5 1 0 true 0 false).enc.previousSample = 1 ∧ (at5 1 0 true 0 false).enc.accumulatedSteps = 0 := by decide

theorem witness_StepRunsTheDecodedOperation :
    (State.reset.setInputs [⟨.d, 0b0111⟩]).inputs = InputWord.mk .d 0b0111 :: []
    ∧ decode State.reset.cfg .d 0b0111 = .ok (.dPoll 3) := ⟨rfl, rfl⟩

/-- A word that is the widest of its format, one that is too wide, none, and a word of an absent debouncer. -/
theorem witness_StepGoesOnExactlyWithAWord :
    (∃ w rest, (State.reset.setInputs [⟨.b, 0x7FFFFFFFF⟩]).inputs = w :: rest
      ∧ w.bits < 2 ^ w.format.width State.reset.cfg ∧ State.reset.hasModule w.format = true)
    ∧ (∃ w rest, (State.reset.setInputs [⟨.d, 0x10⟩]).inputs = w :: rest
        ∧ 2 ^ w.format.width State.reset.cfg ≤ w.bits)
    ∧ State.reset.inputs = []
    ∧ (∃ w rest, ((bare 2 3).setInputs [⟨.b, 0x7FFFFFFFF⟩]).inputs = w :: rest
        ∧ w.bits < 2 ^ w.format.width noButton ∧ (bare 2 3).hasModule w.format = false)
    ∧ ∃ t, step (State.reset.setInputs [⟨.b, 0x7FFFFFFFF⟩]) = .next t :=
  ⟨⟨⟨.b, 0x7FFFFFFFF⟩, [], rfl, by decide, rfl⟩, ⟨⟨.d, 0x10⟩, [], rfl, by decide⟩, rfl,
    ⟨⟨.b, 0x7FFFFFFFF⟩, [], rfl, by decide, rfl⟩, ⟨_, rfl⟩⟩

/-- A module every instance has, and the debouncer of an instance with a button. -/
theorem witness_NoOperationRaises :
    (bare 2 3).hasModule (Instr.dPoll 1).format = true ∧ State.reset.hasModule (Instr.bPoll true 0).format = true := by
  decide

/-- A next state, and a register outside the operation's row. -/
theorem witness_RegistersAreWrittenByTheirOperationsOnly :
    (∃ t, exec (.dPoll 1) State.reset = .next t) ∧ (Instr.dPoll 1).mayWrite State.reset.cfg .isHeld = false
    ∧ (Instr.bPoll true 0).mayWrite State.reset.cfg .accumulatedSteps = false
    ∧ (Instr.poll true true true 0).mayWrite (bare 2 3).cfg .previousLevel = false :=
  ⟨⟨_, rfl⟩, by decide, by decide, by decide⟩

/-- Two states that differ in the last outputs only; and a poll with an event. -/
theorem witness_OutputsFollowStateAndInputOnly :
    ((State.reset.setOut (.b true)).cfg = State.reset.cfg ∧ (State.reset.setOut (.b true)).enc = State.reset.enc
      ∧ (State.reset.setOut (.b true)).btn = State.reset.btn
      ∧ (∃ t1, exec (.dPoll 1) (State.reset.setOut (.b true)) = .next t1) ∧ ∃ t2, exec (.dPoll 1) State.reset = .next t2)
    ∧ ∃ t, exec (.dPoll 0) (at5 2 3 true 0 false) = .next t ∧ (t.out.detent ≠ 0b00 ∨ t.out.press = true) :=
  ⟨⟨rfl, rfl, rfl, ⟨_, rfl⟩, ⟨_, rfl⟩⟩, ⟨_, rfl, by decide⟩⟩

theorem witness_IdleCyclesAreInvisible :
    ∀ i ∈ [Instr.dIdle 3, .bIdle true 5, .idle true false true 9],
      i.isIdle = true ∧ State.reset.hasModule i.format = true := by decide

theorem witness_SumNeverOverflows :
    (EncoderState.mk 2 3).Inv Config.reference ∧ (EncoderState.mk 2 (-3)).Inv Config.reference :=
  ⟨⟨by decide, by decide⟩, ⟨by decide, by decide⟩⟩

/-- An event of each direction, with the count in range. -/
theorem witness_EventResetsTheCountToZero :
    (∃ t, exec (.dPoll 0) (at5 2 3 true 0 false) = .next t ∧ t.out ≠ .d 0b00)
    ∧ (∃ t, exec (.dPoll 0) (at5 1 (-3) true 0 false) = .next t ∧ t.out = .d 0b11)
    ∧ (at5 2 3 true 0 false).enc.Inv Config.reference ∧ (at5 1 (-3) true 0 false).enc.Inv Config.reference :=
  ⟨⟨_, rfl, by decide⟩, ⟨_, rfl, by decide⟩, ⟨by decide, by decide⟩, ⟨by decide, by decide⟩⟩

/-- S2 and S3's codes with a repeated sample: steps of +1 and 0 only, and of -1 and 0 only. -/
theorem witness_DetentsCountTheSteps :
    (at5 0 0 true 0 false).enc.accumulatedSteps = 0
    ∧ (∀ x ∈ pathSteps 0 [1, 3, 3, 2, 0], x = 1 ∨ x = 0) ∧ (∀ x ∈ pathSteps 0 [2, 3, 3, 1, 0], x = -1 ∨ x = 0) := by
  decide

theorem witness_StepsAreAccountedFor : (at5 2 (-3) true 0 false).enc.Inv Config.reference := ⟨by decide, by decide⟩

/-- V-D1's rocking part stays below the threshold; S4's third placement has three steps pending. -/
theorem witness_StepsCancelBelowTheThreshold :
    (∀ k, k ≤ [(1 : Code), 3, 1, 0].length → |(0 : Int) + ((pathSteps 0 [1, 3, 1, 0]).take k).sum| < (4 : Int))
    ∧ (at5 2 3 true 0 false).enc.Inv Config.reference :=
  ⟨fun k h => by
      have : k = 0 ∨ k = 1 ∨ k = 2 ∨ k = 3 ∨ k = 4 := by simp at h; omega
      rcases this with rfl | rfl | rfl | rfl | rfl <;> decide,
    ⟨by decide, by decide⟩⟩

theorem witness_BResetLoadsLevelTimeAndLatch :
    State.reset.cfg.hasButton = true ∧ 0 < 2 ^ State.reset.cfg.timeW ∧ 0xFFFFFFFF < 2 ^ State.reset.cfg.timeW := by
  decide

theorem witness_BIdleChangesNothing :
    State.reset.cfg.hasButton = true ∧ 0 < 2 ^ State.reset.cfg.timeW ∧ 0xFFFFFFFF < 2 ^ State.reset.cfg.timeW := by
  decide

theorem witness_BPollDebounces :
    State.reset.btn = some released ∧ 0 < 2 ^ State.reset.cfg.timeW ∧ 0xFFFFFFFF < 2 ^ State.reset.cfg.timeW := by
  decide

theorem witness_ElapsedTimeIsModular :
    (at5 0 0 true 4294963200 false).btn = some { released with lastTransitionTime := 4294963200 }
    ∧ 256 < 2 ^ Config.reference.timeW ∧ 4294963200 < 2 ^ Config.reference.timeW := by decide

/-- The stored time at the top of its range, so that the clock wraps in the window; the window is at least 1. -/
theorem witness_WindowBoundary :
    (at5 0 0 true 0xFFFFFFFF false).btn = some { released with lastTransitionTime := 0xFFFFFFFF }
    ∧ 0xFFFFFFFF < 2 ^ State.reset.cfg.timeW ∧ false ≠ released.previousLevel ∧ 1 ≤ State.reset.cfg.debounceTicks := by
  decide

/-- V-B7: one wrap (k = 1) and e = 5000; and e at the window and at the top of its range. -/
theorem witness_WrappedClockReadsTheResidue :
    (at5 0 0 true 1000 false).btn = some { released with lastTransitionTime := 1000 }
    ∧ 1000 < 2 ^ State.reset.cfg.timeW ∧ 5000 < 2 ^ State.reset.cfg.timeW ∧ 20000 < 2 ^ State.reset.cfg.timeW
    ∧ 0xFFFFFFFF < 2 ^ State.reset.cfg.timeW ∧ false ≠ released.previousLevel := by decide

/-- A released level with the latch set (no run reaches it), the window just passed; and a released level whose latch
mirrors it. -/
theorem witness_PressedWhileHeldReportsNothing :
    ((at5 0 0 true 0 true).btn = some { released with isHeld := true }
      ∧ released.previousLevel ≠ State.reset.cfg.activeLevel
      ∧ State.reset.cfg.debounceTicks ≤ elapsed State.reset.cfg 20000 0)
    ∧ State.reset.btn = some released ∧ released.Inv State.reset.cfg :=
  ⟨by decide, by decide, released_inv⟩

theorem witness_PressesAlternateWithReleases :
    State.reset.btn = some released ∧ released.Inv State.reset.cfg
    ∧ ∀ i ∈ [Instr.bPoll false 30000, .dPoll 1, .poll true true true 60000],
        i.wf State.reset.cfg = true ∧ i.loadsButton = false :=
  ⟨by decide, released_inv, by decide⟩

theorem witness_PressClosedForm :
    State.reset.btn = some released ∧ released.Inv State.reset.cfg ∧ 0xFFFFFFFF < 2 ^ State.reset.cfg.timeW :=
  ⟨by decide, released_inv, by decide⟩

/-- A differing sample just inside the window, and samples of the same level at any time. -/
theorem witness_ChatterInsideTheWindowIsIgnored :
    State.reset.btn = some released
    ∧ ∀ p ∈ [(false, 19999), (true, 500000), (false, 1)], p.1 ≠ released.previousLevel →
        elapsed State.reset.cfg p.2 released.lastTransitionTime < State.reset.cfg.debounceTicks := by decide

theorem witness_HeldLevelReportsOnce :
    State.reset.btn = some released ∧ released.Inv State.reset.cfg ∧ false ≠ released.previousLevel
    ∧ (∀ now ∈ [0, 19999],
        elapsed State.reset.cfg now released.lastTransitionTime < State.reset.cfg.debounceTicks)
    ∧ State.reset.cfg.debounceTicks ≤ elapsed State.reset.cfg 20000 released.lastTransitionTime :=
  ⟨by decide, released_inv, by decide, by decide, by decide⟩

/-- Both ends of the timestamps, and an instance with and one without a button. -/
theorem witness_ResetLoadsEveryRegister :
    0 < 2 ^ State.reset.cfg.timeW ∧ 0xFFFFFFFF < 2 ^ State.reset.cfg.timeW ∧ State.reset.cfg.hasButton = true
    ∧ (bare 2 3).cfg.hasButton = false := by decide

/-- Both ends of the timestamps, and an instance with and one without a button. -/
theorem witness_PollIsBothHalves :
    0 < 2 ^ State.reset.cfg.timeW ∧ 0xFFFFFFFF < 2 ^ State.reset.cfg.timeW ∧ State.reset.cfg.hasButton = true
    ∧ (bare 2 3).cfg.hasButton = false := by decide

theorem witness_IdleChangesNothing : 0 < 2 ^ State.reset.cfg.timeW ∧ 0xFFFFFFFF < 2 ^ State.reset.cfg.timeW := by
  decide

/-- A button; then two states equal in one half and different in the other, each way. -/
theorem witness_HalvesOfAPollCommute :
    State.reset.cfg.hasButton = true
    ∧ ((at5 1 2 true 0 false).enc = (at5 1 2 false 9 true).enc
      ∧ (∃ t1, exec (.poll true true false 30000) (at5 1 2 true 0 false) = .next t1)
      ∧ ∃ t2, exec (.poll true true true 7) (at5 1 2 false 9 true) = .next t2)
    ∧ ((at5 1 2 true 0 false).btn = (at5 3 0 true 0 false).btn
      ∧ (∃ t1, exec (.poll true true false 30000) (at5 1 2 true 0 false) = .next t1)
      ∧ ∃ t2, exec (.poll false true false 30000) (at5 3 0 true 0 false) = .next t2) :=
  ⟨by decide, ⟨rfl, ⟨_, rfl⟩, ⟨_, rfl⟩⟩, ⟨rfl, ⟨_, rfl⟩, ⟨_, rfl⟩⟩⟩

/-- An instance with and one without a button. -/
theorem witness_ControllerIsItsTwoModules :
    State.reset.cfg.hasButton = true ∧ (bare 2 3).cfg.hasButton = false := by decide

theorem witness_OutputWordsOfAPoll :
    (∃ t, exec (.poll false false false 25000) (at5 2 3 true 0 false) = .next t) ∧ 3 ∈ [0, 1, 2, 3, 6, 7] :=
  ⟨⟨_, rfl⟩, by decide⟩

theorem witness_WithoutAButtonOnlyTheRotationHalf : (bare 2 3).cfg.hasButton = false := by decide

/-- Next states of every reset and poll; a poll that rejects noise, and one that accepts. -/
theorem witness_PreviousSampleFollowsEveryPoll :
    (∃ t, exec (.dReset true 2) State.reset = .next t) ∧ (∃ t, exec (.dPoll 2) State.reset = .next t)
    ∧ State.reset.btn = some released
    ∧ (∃ t, exec (.reset true true false false 5) State.reset = .next t)
    ∧ (∃ t, exec (.bReset true false 5) State.reset = .next t)
    ∧ (∃ t, exec (.bPoll false 19999) State.reset = .next t ∧ t.btn = some released)
    ∧ ∃ t, exec (.poll true false false 20000) State.reset = .next t
        ∧ t.btn = some { previousLevel := false, lastTransitionTime := 20000, isHeld := true } :=
  ⟨⟨_, rfl⟩, ⟨_, rfl⟩, by decide, ⟨_, rfl⟩, ⟨_, rfl⟩, ⟨_, rfl, by decide⟩, ⟨_, rfl, by decide⟩⟩

/-- Two resets, the first with `tick` set, then a last one. -/
theorem witness_ResetForgetsThePast :
    (∀ y ∈ [Cycle.mk true true true false false 5, .mk true false false true true 6], y.rst = true)
    ∧ (Cycle.mk true false true true true 7).rst = true := by decide

theorem witness_ResetStateIsTheWorkedExample : (at5 3 2 false 77 true).cfg = Config.reference := by decide

theorem witness_ResetStateMeetsTheInvariant : 0xFFFFFFFF < 2 ^ Config.reference.timeW := by decide

theorem witness_StepKeepsTheInvariant :
    (State.reset.setInputs [⟨.c, 0x08000061A8⟩]).Inv
    ∧ ∃ t, step (State.reset.setInputs [⟨.c, 0x08000061A8⟩]) = .next t := ⟨reset_inv, ⟨_, rfl⟩⟩

/-- From a state that meets no part of the invariant. -/
theorem witness_OneResetEstablishesTheInvariant :
    (at5 3 100 true 0x100000000 true).cfg.hasButton = true
    ∧ 0xFFFFFFFF < 2 ^ (at5 3 100 true 0x100000000 true).cfg.timeW
    ∧ ∃ t, exec (.reset true true true true 0xFFFFFFFF) (at5 3 100 true 0x100000000 true) = .next t :=
  ⟨by decide, by decide, ⟨_, rfl⟩⟩

/-- `ACC_W` 8 and 4, with three steps pending. -/
theorem witness_EveryLegalWidthBehavesAlike :
    (at5 2 3 true 0 false).cfg.threshold = (on narrow rfl 2 3 true 0 false).cfg.threshold
    ∧ (at5 2 3 true 0 false).cfg.timeW = (on narrow rfl 2 3 true 0 false).cfg.timeW
    ∧ (at5 2 3 true 0 false).cfg.debounceTicks = (on narrow rfl 2 3 true 0 false).cfg.debounceTicks
    ∧ (at5 2 3 true 0 false).cfg.activeLevel = (on narrow rfl 2 3 true 0 false).cfg.activeLevel
    ∧ (at5 2 3 true 0 false).enc = (on narrow rfl 2 3 true 0 false).enc
    ∧ (at5 2 3 true 0 false).btn = (on narrow rfl 2 3 true 0 false).btn
    ∧ (at5 2 3 true 0 false).enc.Inv (at5 2 3 true 0 false).cfg
    ∧ ∀ i ∈ [Instr.dPoll 0, .bPoll false 20000, .poll true true true 5],
        (at5 2 3 true 0 false).hasModule i.format = true :=
  ⟨rfl, rfl, rfl, rfl, rfl, rfl, ⟨by decide, by decide⟩, by decide⟩

theorem witness_OnlyLegalInstancesAreElaborated : Params.reference.elaborate = .ok Config.reference := by rfl

theorem witness_DegenerateParameters :
    ((on oneStep rfl 0 0 true 0 false).cfg.threshold = 1 ∧ (on oneStep rfl 0 0 true 0 false).enc.Inv oneStep)
    ∧ (on noWindow rfl 0 0 true 0 false).cfg.hasButton = true
    ∧ (on noWindow rfl 0 0 true 0 false).cfg.debounceTicks = 0 :=
  ⟨⟨rfl, ⟨by decide, by decide⟩⟩, rfl, rfl⟩

/-- An instance without a button, and a next state in it. -/
theorem witness_AbsentDebouncerHasNoRegisters :
    (bare 2 3).cfg.hasButton = false ∧ ∃ t, exec (.poll true true true 5) (bare 2 3) = .next t := ⟨rfl, ⟨_, rfl⟩⟩

end Sys2Proof.Tests
end

section
/-! SUPPORT. The statements of the family 00_scope (R6 to R12): an instance is elaborated from legal parameters only,
and ACC_W and TICK_UNIT change nothing that can be observed. -/

namespace Sys2Proof

/-! ## Elaboration (U2) -/

/-- The accumulator constraint on the requested THRESHOLD, an integer, is the one elaboration tests on its natural
number (R6, R7). With `n = 0`, which ACC_W = 0 gives as well (log 12), neither side can hold. -/
theorem threshold_legal_iff (z : Int) (n : Nat) :
    (1 ≤ z ∧ z ≤ 2 ^ n - 1) ↔ (1 ≤ z.toNat ∧ z.toNat ≤ 2 ^ n - 1) := by
  have hpos : 0 < 2 ^ n := by positivity
  have hcast : (2 : Int) ^ n = ((2 ^ n : Nat) : Int) := by push_cast; rfl
  rw [hcast]
  omega

/-- What elaboration can answer with an instance: the parameters are legal and the instance has them (U2). -/
theorem Params.elaborate_eq_ok {p : Params} {cfg : Config} (h : p.elaborate = .ok cfg) :
    ((1 ≤ p.threshold.toNat ∧ p.threshold.toNat ≤ 2 ^ (p.accW - 1) - 1) ∧ 1 ≤ p.timeW
      ∧ p.debounceTicks < 2 ^ p.timeW ∧ p.activeLevel ≤ 1)
    ∧ cfg.threshold = p.threshold.toNat ∧ cfg.accW = p.accW ∧ cfg.timeW = p.timeW
    ∧ cfg.tickUnitNs = p.tickUnitNs ∧ cfg.debounceTicks = p.debounceTicks
    ∧ cfg.activeLevel = (p.activeLevel == 1) ∧ cfg.hasButton = p.hasButton := by
  unfold Params.elaborate at h
  split_ifs at h with h1 h2 h3 h4 h5
  cases h
  exact ⟨⟨⟨h1, h2⟩, h3, h4, h5⟩, rfl, rfl, rfl, rfl, rfl, rfl, rfl⟩

/-- Legal parameters elaborate (U2). -/
theorem Params.elaborate_of_legal {p : Params}
    (hthr : 1 ≤ p.threshold.toNat ∧ p.threshold.toNat ≤ 2 ^ (p.accW - 1) - 1) (htime : 1 ≤ p.timeW)
    (hdeb : p.debounceTicks < 2 ^ p.timeW) (hlev : p.activeLevel ≤ 1) : ∃ cfg, p.elaborate = .ok cfg :=
  ⟨_, by rw [Params.elaborate, dif_pos hthr.1, dif_pos hthr.2, dif_pos htime, dif_pos hdeb, if_pos hlev]⟩

/-- Settles O52: the five tests of elaboration are the five constraints of U2. -/
theorem onlyLegalInstancesAreElaborated : Obligations.OnlyLegalInstancesAreElaborated := by
  refine ⟨fun p => ⟨?_, ?_⟩, fun p cfg h => ?_, rfl⟩
  · rintro ⟨cfg, h⟩
    obtain ⟨⟨hthr, htime, hdeb, hlev⟩, -⟩ := Params.elaborate_eq_ok h
    obtain ⟨hlo, hhi⟩ := (threshold_legal_iff _ _).2 hthr
    exact ⟨hlo, hhi, htime, hdeb, by omega⟩
  · rintro ⟨hlo, hhi, htime, hdeb, hlev⟩
    exact Params.elaborate_of_legal ((threshold_legal_iff _ _).1 ⟨hlo, hhi⟩) htime hdeb (by omega)
  · obtain ⟨⟨hthr, -, -, hlev⟩, ht, hacc, htime, htick, hdeb, hact, hbtn⟩ := Params.elaborate_eq_ok h
    have hlevel : cfg.activeLevel.toNat = p.activeLevel := by
      rw [hact]
      interval_cases p.activeLevel <;> rfl
    exact ⟨by omega, hacc, htime, htick, hdeb, hlevel, hbtn⟩

/-! ## Instances that differ in ACC_W and TICK_UNIT only (R7, R9) -/

/-- Two instances that agree in every parameter an operation's rule names, ACC_W apart. -/
structure Config.SameRules (c d : Config) : Prop where
  threshold : c.threshold = d.threshold
  timeW : c.timeW = d.timeW
  debounceTicks : c.debounceTicks = d.debounceTicks
  activeLevel : c.activeLevel = d.activeLevel

namespace Machine

/-- A count in range does not wrap at the next sample, whatever ACC_W (R74). -/
theorem EncoderState.sum_of_inv {cfg : Config} {e : EncoderState} (he : e.Inv cfg) (sample : Code) :
    e.sum cfg sample = e.accumulatedSteps + (stepOf e.previousSample sample).toInt := by
  obtain ⟨hlo, hhi⟩ := he
  have hstep := stepOf_cases e.previousSample sample
  exact accumulate_of_bound cfg _ _ (by omega) (by omega)

/-- Every operation keeps the count in range (R25). -/
theorem encAfter_inv {cfg : Config} {e : EncoderState} (he : e.Inv cfg) (i : Instr) : (encAfter cfg e i).Inv cfg := by
  cases i
  case dReset => exact EncoderState.load_inv _ _
  case dPoll => exact EncoderState.poll_inv _ _ _
  case reset => exact EncoderState.load_inv _ _
  case poll => exact EncoderState.poll_inv _ _ _
  all_goals exact he

section
variable {c d : Config} (h : c.SameRules d)
include h

theorem EncoderState.Inv.of_sameRules {e : EncoderState} (he : e.Inv c) : e.Inv d := by
  rwa [EncoderState.Inv, ← h.threshold]

/-- The detent code of a sum depends on THRESHOLD only (R72). -/
theorem detentCode_of_sameRules (sum : Int) : detentCode c sum = detentCode d sum := by
  unfold detentCode reachesClockwise reachesCounterClockwise
  rw [h.threshold]

/-- The stored count of a sum depends on THRESHOLD only (R72). -/
theorem storedSteps_of_sameRules (sum : Int) : storedSteps c sum = storedSteps d sum := by
  unfold storedSteps reachesClockwise reachesCounterClockwise
  rw [h.threshold]

/-- From a count in range both widths reach the same sum: ACC_W is read here only, and neither sum wraps. -/
theorem EncoderState.sum_of_sameRules {e : EncoderState} (he : e.Inv c) (sample : Code) :
    e.sum c sample = e.sum d sample :=
  (EncoderState.sum_of_inv he sample).trans (EncoderState.sum_of_inv (he.of_sameRules h) sample).symm

theorem EncoderState.poll_of_sameRules {e : EncoderState} (he : e.Inv c) (sample : Code) :
    e.poll c sample = e.poll d sample := by
  rw [EncoderState.poll, EncoderState.poll, sum_of_sameRules h he, storedSteps_of_sameRules h]

theorem EncoderState.event_of_sameRules {e : EncoderState} (he : e.Inv c) (sample : Code) :
    e.event c sample = e.event d sample := by
  rw [EncoderState.event, EncoderState.event, sum_of_sameRules h he, detentCode_of_sameRules h]

/-- The elapsed time depends on TIME_W only (R81). -/
theorem elapsed_of_sameRules (now last : Nat) : elapsed c now last = elapsed d now last := by
  rw [elapsed, elapsed, h.timeW]

theorem accepts_of_sameRules (b : ButtonState) (raw : Bool) (now : Nat) :
    accepts c b raw now = accepts d b raw now := by
  rw [accepts, accepts, elapsed_of_sameRules h, h.debounceTicks]

theorem pressed_of_sameRules (level : Bool) : pressed c level = pressed d level := by
  rw [pressed, pressed, h.activeLevel]

theorem ButtonState.load_of_sameRules : ButtonState.load c = ButtonState.load d := by
  funext raw now
  rw [ButtonState.load, ButtonState.load, pressed_of_sameRules h]

theorem ButtonState.poll_of_sameRules (b : ButtonState) : b.poll c = b.poll d := by
  funext raw now
  rw [ButtonState.poll, ButtonState.poll, accepts_of_sameRules h, heldOnAccept, heldOnAccept, pressed_of_sameRules h]

theorem ButtonState.event_of_sameRules (b : ButtonState) : b.event c = b.event d := by
  funext raw now
  rw [ButtonState.event, ButtonState.event, accepts_of_sameRules h]
  rw [pressOnAccept, pressOnAccept, pressed_of_sameRules h]

/-! One operation: its next registers and its outputs. -/

theorem encAfter_of_sameRules {e : EncoderState} (he : e.Inv c) (i : Instr) : encAfter c e i = encAfter d e i := by
  cases i
  case dPoll => exact EncoderState.poll_of_sameRules h he _
  case poll => exact EncoderState.poll_of_sameRules h he _
  all_goals rfl

theorem btnAfter_of_sameRules (btn : Option ButtonState) (i : Instr) : btnAfter c btn i = btnAfter d btn i := by
  cases i
  case bReset => simp only [btnAfter, ButtonState.load_of_sameRules h]
  case bPoll => simp only [btnAfter, ButtonState.poll_of_sameRules h]
  case reset => simp only [btnAfter, ButtonState.load_of_sameRules h]
  case poll => simp only [btnAfter, ButtonState.poll_of_sameRules h]
  all_goals rfl

theorem outDuring_of_sameRules {e : EncoderState} (he : e.Inv c) (btn : Option ButtonState) (i : Instr) :
    outDuring c e btn i = outDuring d e btn i := by
  cases i
  case dPoll => simp only [outDuring, EncoderState.event_of_sameRules h he]
  case bPoll => simp only [outDuring, ButtonState.event_of_sameRules h]
  case poll => simp only [outDuring, EncoderState.event_of_sameRules h he, ButtonState.event_of_sameRules h]
  all_goals rfl

end

/-- The simulation: two instances with the same rules and the same registers, the count in range. -/
structure Twin (s1 s2 : State) : Prop where
  rules : s1.cfg.SameRules s2.cfg
  enc : s1.enc = s2.enc
  btn : s1.btn = s2.btn
  inv : s1.enc.Inv s1.cfg

/-- Twins have the same modules: the button registers say whether there is a debouncer (R21). -/
theorem Twin.hasModule_eq {s1 s2 : State} (h : Twin s1 s2) (f : Format) : s1.hasModule f = s2.hasModule f := by
  have hbutton : s1.cfg.hasButton = s2.cfg.hasButton := by rw [← s1.btn_present, ← s2.btn_present, h.btn]
  cases f
  case b => exact hbutton
  all_goals rfl

/-- The commuting step: an operation makes twins of twins. -/
theorem Twin.twin_after {s1 s2 : State} (h : Twin s1 s2) (i : Instr) : Twin (after i s1) (after i s2) where
  rules := h.rules
  enc := by rw [after_enc, after_enc, ← h.enc, encAfter_of_sameRules h.rules h.inv]
  btn := by rw [after_btn, after_btn, ← h.btn, btnAfter_of_sameRules h.rules]
  inv := encAfter_inv h.inv i

/-- In the same cycle twins drive the same outputs. -/
theorem Twin.out_after {s1 s2 : State} (h : Twin s1 s2) (i : Instr) : (after i s1).out = (after i s2).out := by
  rw [after_out, after_out, ← h.enc, ← h.btn, outDuring_of_sameRules h.rules h.inv]

/-- Twins complete every run of operations of their modules with the same outputs, and end as twins. -/
theorem Twin.exists_runOps (ops : List Instr) {s1 s2 : State} (h : Twin s1 s2)
    (hops : ∀ i ∈ ops, s1.hasModule i.format = true) :
    ∃ outs t1 t2, runOps ops s1 = some (outs, t1) ∧ runOps ops s2 = some (outs, t2) ∧ Twin t1 t2 := by
  induction ops generalizing s1 s2 with
  | nil => exact ⟨[], s1, s2, rfl, rfl, h⟩
  | cons i rest ih =>
    obtain ⟨hi, hrest⟩ := List.forall_mem_cons.1 hops
    obtain ⟨outs, t1, t2, hrun1, hrun2, ht⟩ :=
      ih (h.twin_after i) fun j hj => (after_hasModule i s1 j.format).trans (hrest j hj)
    refine ⟨(after i s1).out :: outs, t1, t2, ?_, ?_, ht⟩
    · rw [runOps_cons i rest s1 hi, hrun1]; rfl
    · rw [runOps_cons i rest s2 ((h.hasModule_eq i.format).symm.trans hi), hrun2, h.out_after i]; rfl

/-- Settles O51: instances that differ in ACC_W and TICK_UNIT only are twins, and twins run alike. -/
theorem everyLegalWidthBehavesAlike : Obligations.EveryLegalWidthBehavesAlike := by
  intro ops s1 s2 hthr htime hdeb hact henc hbtn hinv hops
  have htwin : Twin s1 s2 := ⟨⟨hthr, htime, hdeb, hact⟩, henc, hbtn, hinv⟩
  obtain ⟨outs, t1, t2, hrun1, hrun2, ht⟩ := htwin.exists_runOps ops hops
  exact ⟨outs, t1, t2, hrun1, hrun2, ht.enc, ht.btn⟩

end Machine

end Sys2Proof
end

section
/-! SUPPORT. The statements of the family 10_state: which operations write which registers (R15, R21, R24), and the
invariant of R25 and R27 at reset and along every step. -/

namespace Sys2Proof

/-! ## Decoded instructions -/

/-- The row of a pair of codes has no timestamp to bound. -/
theorem decodeRow_wf (cfg : Config) (prev cur : Code) : (decodeRow prev cur).wf cfg = true := by
  unfold decodeRow
  split <;> rfl

/-- What the decoder reads is well formed: the timestamp is the low TIME_W bits of the word (R45, R47). -/
theorem wf_of_decode {cfg : Config} {f : Format} {w : Nat} {i : Instr} (h : decode cfg f w = .ok i) :
    i.wf cfg = true := by
  have hnow : cfg.isTimestamp (nowField cfg w) = true := decide_eq_true (nowField_lt cfg w)
  unfold decode at h
  split at h
  · cases f
    case q => cases h; exact decodeRow_wf _ _ _
    case d => cases h; unfold decodeD; split_ifs <;> rfl
    case b => cases h; unfold decodeB; split_ifs <;> exact hnow
    case c => cases h; unfold decodeC; split_ifs <;> exact hnow
  · cases h

/-! ## The column "written by" (R15) -/

/-- The two accumulator registers have the same writers. -/
theorem Instr.mayWrite_accumulatedSteps (cfg : Config) (i : Instr) :
    i.mayWrite cfg .accumulatedSteps = i.mayWrite cfg .previousSample := by
  cases i <;> rfl

/-- The three button registers have the same writers. -/
theorem Instr.mayWrite_lastTransitionTime (cfg : Config) (i : Instr) :
    i.mayWrite cfg .lastTransitionTime = i.mayWrite cfg .previousLevel := by
  cases i <;> rfl

theorem Instr.mayWrite_isHeld (cfg : Config) (i : Instr) :
    i.mayWrite cfg .isHeld = i.mayWrite cfg .previousLevel := by
  cases i <;> rfl

namespace Machine

/-- An operation that no row of the accumulator names leaves its registers. -/
theorem encAfter_of_not_mayWrite {cfg : Config} {i : Instr} (h : i.mayWrite cfg .previousSample = false)
    (e : EncoderState) : encAfter cfg e i = e := by
  cases i
  case dReset => cases h
  case dPoll => cases h
  case reset => cases h
  case poll => cases h
  all_goals rfl

/-- Without button registers no operation has one to write. -/
@[simp] theorem btnAfter_none (cfg : Config) (i : Instr) : btnAfter cfg none i = none := by
  cases i <;> rfl

/-- An operation that no row of the debouncer names leaves its registers; a RESET or POLL is such an operation without a
button, where there is no register to write (R100). -/
theorem btnAfter_of_not_mayWrite {i : Instr} {s : State} (h : i.mayWrite s.cfg .previousLevel = false) :
    btnAfter s.cfg s.btn i = s.btn := by
  cases i
  case bReset => cases h
  case bPoll => cases h
  case reset =>
    rw [State.btn_eq_none h, btnAfter_none]
  case poll =>
    rw [State.btn_eq_none h, btnAfter_none]
  all_goals rfl

/-- A register reads as before an operation its row does not name. -/
theorem readRegister_after {i : Instr} {s : State} {r : Register} (h : i.mayWrite s.cfg r = false) :
    readRegister (after i s) r = readRegister s r := by
  cases r
  case previousSample =>
    simp [readRegister, encAfter_of_not_mayWrite h]
  case accumulatedSteps =>
    rw [Instr.mayWrite_accumulatedSteps] at h
    simp [readRegister, encAfter_of_not_mayWrite h]
  case previousLevel =>
    simp [readRegister, btnAfter_of_not_mayWrite h]
  case lastTransitionTime =>
    rw [Instr.mayWrite_lastTransitionTime] at h
    simp [readRegister, btnAfter_of_not_mayWrite h]
  case isHeld =>
    rw [Instr.mayWrite_isHeld] at h
    simp [readRegister, btnAfter_of_not_mayWrite h]

/-- Settles O11: the next state is `after`, which reads as before at every register the operation may not write. -/
theorem registersAreWrittenByTheirOperationsOnly : Obligations.RegistersAreWrittenByTheirOperationsOnly := by
  intro i s t h
  obtain ⟨rfl, -⟩ := eq_after_of_exec h
  exact ⟨rfl, rfl, fun r hr => readRegister_after hr⟩

/-! ## The last sample and the last level (R24) -/

/-- After a poll the level is the raw one unless the change was rejected as noise (R80). -/
theorem ButtonState.poll_previousLevel_eq_iff (cfg : Config) (b : ButtonState) (raw : Bool) (now : Nat) :
    (b.poll cfg raw now).previousLevel = raw
      ↔ ¬(raw ≠ b.previousLevel ∧ elapsed cfg now b.lastTransitionTime < cfg.debounceTicks) := by
  rcases b.poll_cases cfg raw now with ⟨-, hwindow, -, hpoll, -⟩ | ⟨hreject, -, hpoll, -⟩
  · have hlevel : (b.poll cfg raw now).previousLevel = raw := by rw [hpoll]; rfl
    exact iff_of_true hlevel fun hnoise => absurd hnoise.2 (by omega)
  · rw [hpoll]
    constructor
    · exact fun hstable hnoise => hnoise.1 hstable.symm
    · intro hquiet
      rcases hreject with hstable | hearly
      · exact hstable.symm
      · by_contra hne
        exact hquiet ⟨fun heq => hne heq.symm, hearly⟩

/-- Settles O45: the samples by the registers each reset and poll writes, the level by what a debouncer's poll does. -/
theorem previousSampleFollowsEveryPoll : Obligations.PreviousSampleFollowsEveryPoll := by
  refine ⟨?_, ?_, fun s r tick a b raw now hr => ⟨?_, ?_⟩⟩
  · rintro s tick sample t (h | h) <;> obtain ⟨rfl, -⟩ := eq_after_of_exec h <;> rfl
  · rintro s tick a b raw now t (h | h) <;> obtain ⟨rfl, -⟩ := eq_after_of_exec h <;> rfl
  · have hload : s.btn.map (fun _ => ButtonState.load s.cfg raw now) = some (ButtonState.load s.cfg raw now) := by
      rw [hr]; rfl
    rintro t (h | h) <;> obtain ⟨rfl, -⟩ := eq_after_of_exec h <;> exact ⟨_, hload, rfl⟩
  · have hpoll : s.btn.map (fun q => q.poll s.cfg raw now) = some (r.poll s.cfg raw now) := by
      rw [hr]; rfl
    have hlevel := r.poll_previousLevel_eq_iff s.cfg raw now
    rintro t (h | h) <;> obtain ⟨rfl, -⟩ := eq_after_of_exec h <;> exact ⟨_, hpoll, hlevel⟩

/-! ## The button registers of an instance without a button (R21) -/

/-- The button registers are absent exactly in an instance without a button. -/
theorem State.btn_eq_none_iff (s : State) : s.btn = none ↔ s.cfg.hasButton = false := by
  rw [← s.btn_present, Option.isSome_eq_false_iff, Option.isNone_iff_eq_none]

/-- Settles O54: the state carries the presence of its button registers, no operation changes it, and an operation of an
absent module is refused. -/
theorem absentDebouncerHasNoRegisters : Obligations.AbsentDebouncerHasNoRegisters := by
  refine ⟨fun s => ⟨s.btn_eq_none_iff, ⟨rfl, rfl⟩, ?_⟩, fun i s t h => ?_, fun s tick raw now h => ?_⟩
  · intro r hr
    rw [← s.btn_present]
    fin_cases hr <;> exact Option.isSome_map
  · obtain ⟨rfl, -⟩ := eq_after_of_exec h
    exact btnAfter_isSome _ _ _
  · exact ⟨exec_absent _ s h, exec_absent _ s h, exec_absent _ s h⟩

/-! ## The invariant (R25, R27) -/

/-- An operation that loads the button registers makes their invariant hold whatever they held. -/
theorem btnAfter_inv_of_loadsButton {cfg : Config} {i : Instr} (hload : i.loadsButton = true) (hwf : i.wf cfg = true)
    {btn : Option ButtonState} {b : ButtonState} (h : btnAfter cfg btn i = some b) : b.Inv cfg := by
  cases i
  case bReset =>
    obtain ⟨_, -, rfl⟩ := Option.map_eq_some_iff.1 h
    exact ButtonState.load_inv cfg _ (of_decide_eq_true hwf)
  case reset =>
    obtain ⟨_, -, rfl⟩ := Option.map_eq_some_iff.1 h
    exact ButtonState.load_inv cfg _ (of_decide_eq_true hwf)
  all_goals cases hload

/-- Every well-formed operation keeps the invariant of the button registers. -/
theorem btnAfter_inv {cfg : Config} {i : Instr} (hwf : i.wf cfg = true) {btn : Option ButtonState}
    (hbtn : ∀ b, btn = some b → b.Inv cfg) {b : ButtonState} (h : btnAfter cfg btn i = some b) : b.Inv cfg := by
  cases i
  case bReset => exact btnAfter_inv_of_loadsButton rfl hwf h
  case reset => exact btnAfter_inv_of_loadsButton rfl hwf h
  case bPoll =>
    obtain ⟨r, hr, rfl⟩ := Option.map_eq_some_iff.1 h
    exact ButtonState.poll_inv cfg r _ (hbtn r hr) (of_decide_eq_true hwf)
  case poll =>
    obtain ⟨r, hr, rfl⟩ := Option.map_eq_some_iff.1 h
    exact ButtonState.poll_inv cfg r _ (hbtn r hr) (of_decide_eq_true hwf)
  all_goals exact hbtn b h

/-- No operation drives the code `0b10`, from any registers: a poll drives an event code, a DECODE a
table entry, and every other cycle zeros. -/
theorem outDuring_inv (cfg : Config) (e : EncoderState) (btn : Option ButtonState) (i : Instr) :
    (outDuring cfg e btn i).Inv := by
  have hzero : (0b00 : Code2) ≠ 0b10 := by decide
  cases i
  case dReset => exact hzero
  case dIdle => exact hzero
  case reset => exact hzero
  case idle => exact hzero
  case dPoll => exact detentCode_ne_reserved _ _
  case poll => exact detentCode_ne_reserved _ _
  case bReset => trivial
  case bPoll => trivial
  case bIdle => trivial
  all_goals exact stepOf_ne_reserved _ _

theorem after_out_inv (i : Instr) (s : State) : (after i s).out.Inv := outDuring_inv _ _ _ i

/-- Every well-formed operation keeps the invariant. -/
theorem after_inv {i : Instr} {s : State} (hwf : i.wf s.cfg = true) (hs : s.Inv) : (after i s).Inv := by
  obtain ⟨henc, hbtn, -⟩ := hs
  exact ⟨encAfter_inv henc i, fun _ => btnAfter_inv hwf hbtn, after_out_inv i s⟩

/-- Settles O49: a step that goes on runs a decoded, hence well-formed, operation. -/
theorem stepKeepsTheInvariant : Obligations.StepKeepsTheInvariant := by
  intro s t hs hstep
  obtain ⟨-, hstop⟩ | ⟨w, rest, -, ⟨e, -, hstop⟩ | ⟨i, -, -, hstop⟩ | ⟨i, hdecode, -, hnext⟩⟩ := step_cases s
  · cases hstop.symm.trans hstep
  · cases hstop.symm.trans hstep
  · cases hstop.symm.trans hstep
  · cases hnext.symm.trans hstep
    have hwaiting : (s.setInputs rest).Inv := hs
    exact after_inv (wf_of_decode hdecode) hwaiting

/-- Settles O50: a reset loads each module's registers with values that meet the invariant. -/
theorem oneResetEstablishesTheInvariant : Obligations.OneResetEstablishesTheInvariant := by
  refine ⟨fun s t tick a b btn now hnow h => ?_, fun s tick1 tick2 sample raw now hbutton hnow => ?_⟩
  · obtain ⟨rfl, -⟩ := eq_after_of_exec h
    have hwf : (Instr.reset tick a b btn now).wf s.cfg = true := decide_eq_true hnow
    exact ⟨EncoderState.load_inv _ _, fun _ => btnAfter_inv_of_loadsButton rfl hwf, after_out_inv _ s⟩
  · have hwf : (Instr.bReset tick2 raw now).wf s.cfg = true := decide_eq_true hnow
    refine ⟨[.d 0b00, .b false], after (.bReset tick2 raw now) (after (.dReset tick1 sample) s), ?_, ?_⟩
    · rw [runOps_cons _ _ s rfl, runOps_cons (.bReset tick2 raw now) _ (after _ s) hbutton]
      rfl
    · exact ⟨EncoderState.load_inv _ _, fun _ => btnAfter_inv_of_loadsButton rfl hwf, after_out_inv _ _⟩

/-- The state after a reset meets the invariant: its registers are the loaded ones (R29). -/
theorem State.afterReset_inv (cfg : Config) (a b btn : Bool) {now : Nat} (hnow : now < 2 ^ cfg.timeW) :
    (State.afterReset cfg a b btn now).Inv := by
  refine ⟨EncoderState.load_inv cfg (sampleOf a b), fun r hr => ?_, ?_⟩
  · rw [State.afterReset_btn, Option.ite_none_right_eq_some] at hr
    obtain ⟨-, hr⟩ := hr
    cases hr
    exact ButtonState.load_inv cfg btn hnow
  · show (0b00 : Code2) ≠ 0b10
    decide

/-- Settles O48: `State.reset` is the state after one such reset, at time 0. -/
theorem resetStateMeetsTheInvariant : Obligations.ResetStateMeetsTheInvariant :=
  ⟨State.afterReset_inv Config.reference false false true (Nat.two_pow_pos _),
    fun cfg a b btn _ hnow => State.afterReset_inv cfg a b btn hnow⟩

end Machine

end Sys2Proof
end

section
/-! SUPPORT. The statement of the family 20_memory: the contents of the transition table (R33) and its index (R32). -/

namespace Sys2Proof.Machine

/-- The index `{previous, current}` as a number: the earlier code stands two bits above the later one (R32). -/
theorem tableIndex_toNat (previous current : Code) :
    (tableIndex previous current).toNat = previous.toNat * 4 + current.toNat := by
  rw [tableIndex, BitVec.toNat_append, ← Nat.shiftLeft_add_eq_or_of_lt current.isLt, Nat.shiftLeft_eq]

/-- Settles O14: the contents are 16 constants, read one by one; the index is a concatenation. -/
theorem transitionTableContents : Obligations.TransitionTableContents := by
  refine ⟨?contents, tableIndex_toNat⟩
  case contents => decide

end Sys2Proof.Machine
end

section
/-! SUPPORT. The statements of the family 30_encoding: the places of the fields and the round trip of the encoding (R45 to
R49, R58), the one step of the machine (R44, R50), and the idle cycles (D4). -/

namespace Sys2Proof

/-! ## The words by the weights of their fields (R45 to R48) -/

theorem wordB_eq_sum (cfg : Config) (rst tick raw : Bool) (now : Nat) :
    wordB cfg rst tick raw now
      = rst.toNat * 2 ^ (cfg.timeW + 2) + tick.toNat * 2 ^ (cfg.timeW + 1) + raw.toNat * 2 ^ cfg.timeW + now := by
  simp only [wordB, pow_add]; ring

theorem wordC_eq_sum (cfg : Config) (rst tick a b btn : Bool) (now : Nat) :
    wordC cfg rst tick a b btn now
      = rst.toNat * 2 ^ (cfg.timeW + 4) + tick.toNat * 2 ^ (cfg.timeW + 3) + a.toNat * 2 ^ (cfg.timeW + 2)
        + b.toNat * 2 ^ (cfg.timeW + 1) + btn.toNat * 2 ^ cfg.timeW + now := by
  simp only [wordC, pow_add]; ring

/-- A code is its two levels, channel A above channel B (R34). -/
theorem code_toNat_eq (s : Code) : s.toNat = (s.getLsbD 1).toNat * 2 + (s.getLsbD 0).toNat := by
  revert s; decide

/-! ## Every word is the word of its fields -/

/-- A number of `n + 1` bits is its top level over a number of `n` bits. -/
theorem exists_level_above {n w : Nat} (h : w < 2 ^ (n + 1)) :
    ∃ level : Bool, ∃ low < 2 ^ n, w = level.toNat * 2 ^ n + low := by
  rw [pow_succ] at h
  by_cases htop : 2 ^ n ≤ w
  · exact ⟨true, w - 2 ^ n, by omega, by rw [Bool.toNat_true]; omega⟩
  · exact ⟨false, w, by omega, by rw [Bool.toNat_false]; omega⟩

theorem exists_wordQ {w : Nat} (h : w < 2 ^ 4) : ∃ prev cur, w = wordQ prev cur :=
  ⟨codeAt w 2, codeAt w 0, by simp only [wordQ, codeAt, BitVec.toNat_ofNat]; omega⟩

theorem exists_wordD {w : Nat} (h : w < 2 ^ 4) : ∃ rst tick sample, w = wordD rst tick sample := by
  obtain ⟨rst, w3, h3, rfl⟩ := exists_level_above h
  obtain ⟨tick, sample, hsample, rfl⟩ := exists_level_above h3
  exact ⟨rst, tick, BitVec.ofNatLT sample hsample, (Nat.add_assoc _ _ _).symm⟩

theorem exists_wordB {cfg : Config} {w : Nat} (h : w < 2 ^ (cfg.timeW + 3)) :
    ∃ rst tick raw now, now < 2 ^ cfg.timeW ∧ w = wordB cfg rst tick raw now := by
  obtain ⟨rst, w2, h2, rfl⟩ := exists_level_above h
  obtain ⟨tick, w1, h1, rfl⟩ := exists_level_above h2
  obtain ⟨raw, now, hnow, rfl⟩ := exists_level_above h1
  exact ⟨rst, tick, raw, now, hnow, by rw [wordB_eq_sum]; ring⟩

theorem exists_wordC {cfg : Config} {w : Nat} (h : w < 2 ^ (cfg.timeW + 5)) :
    ∃ rst tick a b btn now, now < 2 ^ cfg.timeW ∧ w = wordC cfg rst tick a b btn now := by
  obtain ⟨rst, w4, h4, rfl⟩ := exists_level_above h
  obtain ⟨tick, w3, h3, rfl⟩ := exists_level_above h4
  obtain ⟨a, w2, h2, rfl⟩ := exists_level_above h3
  obtain ⟨b, w1, h1, rfl⟩ := exists_level_above h2
  obtain ⟨btn, now, hnow, rfl⟩ := exists_level_above h1
  exact ⟨rst, tick, a, b, btn, now, hnow, by rw [wordC_eq_sum]; ring⟩

/-! ## What the word of given fields decodes to (R44, R49) -/

/-- Bit `W` is the lowest bit of the field above a timestamp. -/
theorem bitAt_level (W top now : Nat) (hn : now < 2 ^ W) : bitAt (top * 2 ^ W + now) W = top.testBit 0 :=
  bitAt_above W top now 0 hn

theorem decodeQ_wordQ (prev cur : Code) : decodeQ (wordQ prev cur) = decodeRow prev cur := by
  revert prev cur; decide

theorem decodeD_wordD (rst tick : Bool) (sample : Code) :
    decodeD (wordD rst tick sample)
      = if rst then .dReset tick sample else if tick then .dPoll sample else .dIdle sample := by
  revert rst tick sample; decide

theorem decodeB_wordB (cfg : Config) (rst tick raw : Bool) {now : Nat} (hn : now < 2 ^ cfg.timeW) :
    decodeB cfg (wordB cfg rst tick raw now)
      = if rst then .bReset tick raw now else if tick then .bPoll raw now else .bIdle raw now := by
  have hlevels : ∀ rst tick raw : Bool,
      (rst.toNat * 4 + tick.toNat * 2 + raw.toNat).testBit 2 = rst
      ∧ (rst.toNat * 4 + tick.toNat * 2 + raw.toNat).testBit 1 = tick
      ∧ (rst.toNat * 4 + tick.toNat * 2 + raw.toNat).testBit 0 = raw := by decide
  obtain ⟨hrst, htick, hraw⟩ := hlevels rst tick raw
  simp only [decodeB, wordB, bitAt_above _ _ _ _ hn, bitAt_level _ _ _ hn, nowField_below _ _ _ hn, hrst, htick, hraw]

theorem decodeC_wordC (cfg : Config) (rst tick a b btn : Bool) {now : Nat} (hn : now < 2 ^ cfg.timeW) :
    decodeC cfg (wordC cfg rst tick a b btn now)
      = if rst then .reset tick a b btn now else if tick then .poll a b btn now else .idle a b btn now := by
  have hlevels : ∀ rst tick a b btn : Bool,
      let top := rst.toNat * 16 + tick.toNat * 8 + a.toNat * 4 + b.toNat * 2 + btn.toNat
      top.testBit 4 = rst ∧ top.testBit 3 = tick ∧ top.testBit 2 = a ∧ top.testBit 1 = b ∧ top.testBit 0 = btn := by
    decide
  obtain ⟨hrst, htick, ha, hb, hbtn⟩ := hlevels rst tick a b btn
  simp only [decodeC, wordC, bitAt_above _ _ _ _ hn, bitAt_level _ _ _ hn, nowField_below _ _ _ hn, hrst, htick, ha, hb,
    hbtn]

theorem decode_wordQ (cfg : Config) (prev cur : Code) :
    decode cfg .q (wordQ prev cur) = .ok (decodeRow prev cur) :=
  (if_pos (wordQ_lt prev cur)).trans (congrArg _ (decodeQ_wordQ prev cur))

theorem decode_wordD (cfg : Config) (rst tick : Bool) (sample : Code) :
    decode cfg .d (wordD rst tick sample)
      = .ok (if rst then .dReset tick sample else if tick then .dPoll sample else .dIdle sample) :=
  (if_pos (wordD_lt rst tick sample)).trans (congrArg _ (decodeD_wordD rst tick sample))

theorem decode_wordB (cfg : Config) (rst tick raw : Bool) {now : Nat} (hn : now < 2 ^ cfg.timeW) :
    decode cfg .b (wordB cfg rst tick raw now)
      = .ok (if rst then .bReset tick raw now else if tick then .bPoll raw now else .bIdle raw now) :=
  (if_pos (wordB_lt cfg rst tick raw hn)).trans (congrArg _ (decodeB_wordB cfg rst tick raw hn))

theorem decode_wordC (cfg : Config) (rst tick a b btn : Bool) {now : Nat} (hn : now < 2 ^ cfg.timeW) :
    decode cfg .c (wordC cfg rst tick a b btn now)
      = .ok (if rst then .reset tick a b btn now else if tick then .poll a b btn now else .idle a b btn now) :=
  (if_pos (wordC_lt cfg rst tick a b btn hn)).trans (congrArg _ (decodeC_wordC cfg rst tick a b btn hn))

/-- Settles O1: the places of the fields are their weights, and the words of given fields decode to their operation. -/
theorem formatsPlaceTheirFields : Obligations.FormatsPlaceTheirFields := by
  refine ⟨fun cfg => ⟨rfl, rfl, Nat.add_comm _ _, Nat.add_comm _ _⟩, fun cfg prev cur => ⟨?_, rfl, rfl⟩,
    fun cfg rst tick sample => ?_, fun cfg rst tick raw now hn => ?_, fun cfg rst tick a b btn now hn => ?_⟩
  · exact decode_wordQ cfg prev cur
  · exact decode_wordD cfg rst tick sample
  · rw [← wordB_eq_sum]
    exact decode_wordB cfg rst tick raw hn
  · rw [← wordC_eq_sum]
    exact decode_wordC cfg rst tick a b btn hn

/-! ## Format Q: DECODE and its 16 rows -/

namespace Machine

/-- The row of a pair of codes looks up that pair. -/
@[simp] theorem decodePair_decodeRow (prev cur : Code) : decodePair (decodeRow prev cur) = (prev, cur) := by
  revert prev cur; decide

@[simp] theorem decodeRow_format (prev cur : Code) : (decodeRow prev cur).format = .q := by
  revert prev cur; decide

/-- An operation of format Q is encoded by the pair it looks up. -/
theorem encode_of_format_q (cfg : Config) {i : Instr} (h : i.format = .q) :
    encode cfg i = wordQ (decodePair i).1 (decodePair i).2 := by
  cases i
  case dReset | dPoll | dIdle | bReset | bPoll | bIdle | reset | poll | idle => cases h
  all_goals rfl

/-- The decoder's name for an operation of format Q is the row of the pair it looks up (log 10). -/
theorem canonical_of_format_q {i : Instr} (h : i.format = .q) :
    i.canonical = decodeRow (decodePair i).1 (decodePair i).2 := by
  cases i
  case dReset | dPoll | dIdle | bReset | bPoll | bIdle | reset | poll | idle => cases h
  all_goals rfl

/-- An operation of format Q drives the table's entry for its pair and does nothing else (R61). -/
theorem exec_of_format_q {i : Instr} (h : i.format = .q) (s : State) :
    exec i s = .next (driveStep (decodePair i).1 (decodePair i).2 s) := by
  cases i
  case dReset | dPoll | dIdle | bReset | bPoll | bIdle | reset | poll | idle => cases h
  all_goals rfl

/-- DECODE acts as the row of its codes. -/
theorem exec_decodeRow (prev cur : Code) (s : State) : exec (decodeRow prev cur) s = exec (.decode prev cur) s := by
  rw [exec_of_format_q (decodeRow_format prev cur), decodePair_decodeRow]
  rfl

end Machine

open Machine

/-! ## The round trip (R45 to R49, R55) -/

theorem Instr.canonical_of_ne_decode {i : Instr} (h : ∀ prev cur, i ≠ .decode prev cur) : i.canonical = i := by
  cases i
  case decode prev cur => exact absurd rfl (h prev cur)
  all_goals rfl

theorem exec_canonical (i : Instr) (s : State) : exec i.canonical s = exec i s := by
  cases i
  case decode prev cur => exact exec_decodeRow prev cur s
  all_goals rfl

theorem decode_encode_of_format_q (cfg : Config) {i : Instr} (h : i.format = .q) :
    decode cfg i.format (encode cfg i) = .ok i.canonical := by
  rw [h, encode_of_format_q cfg h, canonical_of_format_q h, decode_wordQ]

/-- Decoding the word of a well-formed instruction. -/
theorem decode_encode {cfg : Config} {i : Instr} (hwf : i.wf cfg = true) :
    decode cfg i.format (encode cfg i) = .ok i.canonical := by
  cases i
  case dReset tick sample => exact decode_wordD cfg true tick sample
  case dPoll sample => exact decode_wordD cfg false true sample
  case dIdle sample => exact decode_wordD cfg false false sample
  case bReset tick raw now => exact decode_wordB cfg true tick raw (of_decide_eq_true hwf)
  case bPoll raw now => exact decode_wordB cfg false true raw (of_decide_eq_true hwf)
  case bIdle raw now => exact decode_wordB cfg false false raw (of_decide_eq_true hwf)
  case reset tick a b btn now => exact decode_wordC cfg true tick a b btn (of_decide_eq_true hwf)
  case poll a b btn now => exact decode_wordC cfg false true a b btn (of_decide_eq_true hwf)
  case idle a b btn now => exact decode_wordC cfg false false a b btn (of_decide_eq_true hwf)
  all_goals exact decode_encode_of_format_q cfg rfl

/-- Settles O3: an instruction's word is the word of its fields, which decode to it. -/
theorem decodeOfEncodeIsTheInstruction : Obligations.DecodeOfEncodeIsTheInstruction :=
  fun _ i hwf => ⟨decode_encode hwf, Instr.canonical_of_ne_decode, exec_canonical i⟩

/-- A number that decodes fits its format (R57). -/
theorem lt_of_decode {cfg : Config} {f : Format} {w : Nat} {i : Instr} (h : decode cfg f w = .ok i) :
    w < 2 ^ f.width cfg := by
  by_contra hwide
  cases (if_neg hwide).symm.trans h

/-- What a number decodes to is of its format and is encoded by that number: the number is the word of some fields, and the
control bits among them select the operation whose word has those same fields. -/
theorem encode_of_decode {cfg : Config} {f : Format} {w : Nat} {i : Instr} (h : decode cfg f w = .ok i) :
    i.format = f ∧ encode cfg i = w := by
  have hlt := lt_of_decode h
  cases f
  case q =>
    obtain ⟨prev, cur, rfl⟩ := exists_wordQ hlt
    cases (decode_wordQ cfg prev cur).symm.trans h
    rw [encode_of_format_q cfg (decodeRow_format prev cur), decodePair_decodeRow]
    exact ⟨decodeRow_format prev cur, rfl⟩
  case d =>
    obtain ⟨rst, tick, sample, rfl⟩ := exists_wordD hlt
    cases (decode_wordD cfg rst tick sample).symm.trans h
    cases rst <;> cases tick <;> exact ⟨rfl, rfl⟩
  case b =>
    obtain ⟨rst, tick, raw, now, hn, rfl⟩ := exists_wordB hlt
    cases (decode_wordB cfg rst tick raw hn).symm.trans h
    cases rst <;> cases tick <;> exact ⟨rfl, rfl⟩
  case c =>
    obtain ⟨rst, tick, a, b, btn, now, hn, rfl⟩ := exists_wordC hlt
    cases (decode_wordC cfg rst tick a b btn hn).symm.trans h
    cases rst <;> cases tick <;> exact ⟨rfl, rfl⟩

/-- Settles O4: every number that decodes is the word of some fields, all of which the instruction keeps. -/
theorem encodeOfDecodeIsTheWord : Obligations.EncodeOfDecodeIsTheWord := by
  intro cfg f w i h
  obtain ⟨hformat, hword⟩ := encode_of_decode h
  exact ⟨hformat, wf_of_decode h, hword⟩

/-! ## Match and mask (R49) -/

/-- A mask on the bits from `n` up sees only the field there. -/
theorem and_mask_above {n low : Nat} (hlow : low < 2 ^ n) (top mask : Nat) :
    (top * 2 ^ n + low) &&& (mask * 2 ^ n) = (top &&& mask) * 2 ^ n := by
  have hdiv : (top * 2 ^ n + low) / 2 ^ n = top := by
    rw [Nat.mul_comm, Nat.mul_add_div (by positivity), Nat.div_eq_of_lt hlow, Nat.add_zero]
  rw [← Nat.div_add_mod' ((top * 2 ^ n + low) &&& (mask * 2 ^ n)) (2 ^ n), Nat.and_div_two_pow, Nat.and_mod_two_pow, hdiv,
    Nat.mul_div_cancel _ (by positivity), Nat.mul_mod_left, Nat.and_zero, Nat.add_zero]

theorem and_mask_above_eq_iff {n low : Nat} (hlow : low < 2 ^ n) (top mask value : Nat) :
    (top * 2 ^ n + low) &&& (mask * 2 ^ n) = value * 2 ^ n ↔ top &&& mask = value := by
  rw [and_mask_above hlow, Nat.mul_left_inj (by positivity)]

/-- The match and mask of the three classes of a clocked module: with the control bits above a payload of `n` bits, the
reset rows look at `rst` only, the poll and idle rows at both (R44). -/
theorem control_masks {n low w : Nat} {rst tick : Bool} (hlow : low < 2 ^ n)
    (hw : w = (rst.toNat * 2 + tick.toNat) * 2 ^ n + low) :
    (w &&& 2 * 2 ^ n = 2 * 2 ^ n ↔ rst = true)
    ∧ (w &&& 3 * 2 ^ n = 1 * 2 ^ n ↔ rst = false ∧ tick = true)
    ∧ (w &&& 3 * 2 ^ n = 0 * 2 ^ n ↔ rst = false ∧ tick = false) := by
  subst hw
  simp only [and_mask_above_eq_iff hlow]
  revert rst tick; decide

theorem wordD_eq_control (rst tick : Bool) (sample : Code) :
    ∃ low < 2 ^ 2, wordD rst tick sample = (rst.toNat * 2 + tick.toNat) * 2 ^ 2 + low :=
  ⟨sample.toNat, sample.isLt, by rw [wordD]; ring⟩

theorem wordB_eq_control (cfg : Config) (rst tick raw : Bool) {now : Nat} (hn : now < 2 ^ cfg.timeW) :
    ∃ low < 2 ^ (cfg.timeW + 1),
      wordB cfg rst tick raw now = (rst.toNat * 2 + tick.toNat) * 2 ^ (cfg.timeW + 1) + low := by
  refine ⟨raw.toNat * 2 ^ cfg.timeW + now, ?_, by rw [wordB_eq_sum]; ring⟩
  rw [pow_succ]
  cases raw <;> simp only [Bool.toNat_true, Bool.toNat_false] <;> omega

theorem wordC_eq_control (cfg : Config) (rst tick a b btn : Bool) {now : Nat} (hn : now < 2 ^ cfg.timeW) :
    ∃ low < 2 ^ (cfg.timeW + 3),
      wordC cfg rst tick a b btn now = (rst.toNat * 2 + tick.toNat) * 2 ^ (cfg.timeW + 3) + low := by
  refine ⟨wordB cfg a b btn now, wordB_lt cfg a b btn hn, ?_⟩
  rw [wordC_eq_sum, wordB_eq_sum]; ring

/-- Settles O2: each word is the word of some fields, and the masks read its control bits. -/
theorem matchAndMaskSelectTheOperation : Obligations.MatchAndMaskSelectTheOperation := by
  refine ⟨fun w hw => ?_, fun w hw => ?_, fun w hw => ?_, fun w hw => ?_⟩
  · obtain ⟨prev, cur, rfl⟩ := exists_wordQ hw
    exact ⟨prev, cur, decode_wordQ _ prev cur, Nat.and_two_pow_sub_one_of_lt_two_pow hw⟩
  · obtain ⟨rst, tick, sample, rfl⟩ := exists_wordD hw
    obtain ⟨low, hlow, hword⟩ := wordD_eq_control rst tick sample
    obtain ⟨hreset, hpoll, hidle⟩ := control_masks hlow hword
    refine ⟨_, decode_wordD _ rst tick sample, hreset.trans ?_, hpoll.trans ?_, hidle.trans ?_⟩
    all_goals cases rst <;> cases tick <;> simp
  · obtain ⟨rst, tick, raw, now, hn, rfl⟩ := exists_wordB (cfg := Config.reference) hw
    obtain ⟨low, hlow, hword⟩ := wordB_eq_control Config.reference rst tick raw hn
    obtain ⟨hreset, hpoll, hidle⟩ := control_masks (n := 33) hlow hword
    refine ⟨_, decode_wordB _ rst tick raw hn, hreset.trans ?_, hpoll.trans ?_, hidle.trans ?_⟩
    all_goals cases rst <;> cases tick <;> simp
  · obtain ⟨rst, tick, a, b, btn, now, hn, rfl⟩ := exists_wordC (cfg := Config.reference) hw
    obtain ⟨low, hlow, hword⟩ := wordC_eq_control Config.reference rst tick a b btn hn
    obtain ⟨hreset, hpoll, hidle⟩ := control_masks (n := 35) hlow hword
    refine ⟨_, decode_wordC _ rst tick a b btn hn, hreset.trans ?_, hpoll.trans ?_, hidle.trans ?_⟩
    all_goals cases rst <;> cases tick <;> simp

/-! ## Stimulus lines (R58, R59) -/

/-- A line's instruction is well formed: its timestamp is cut to `TIME_W` bits or is 0. -/
theorem Line.instr_wf (cfg : Config) (l : Line) : (l.instr cfg).wf cfg = true := by
  have hcut : ∀ t, cfg.isTimestamp (nowField cfg t) = true := fun t => decide_eq_true (nowField_lt cfg t)
  have hzero : cfg.isTimestamp 0 = true := decide_eq_true (Nat.two_pow_pos _)
  cases l
  case bReset r t | bPoll r t | reset s r t | poll s r t => exact hcut t
  case bIdle | idle => exact hzero
  all_goals rfl

/-- Settles O6: each line's word is the sum of its fields at their places, and decodes to the line's instruction. -/
theorem linesAssembleToTheirWords : Obligations.LinesAssembleToTheirWords := by
  refine ⟨fun cfg p c s => ⟨rfl, rfl, congrArg (InputWord.mk .d) ?dPoll, rfl⟩, fun cfg s r t =>
    ⟨congrArg (InputWord.mk .b) ?bReset, congrArg (InputWord.mk .b) ?bPoll, congrArg (InputWord.mk .b) ?bIdle,
      congrArg (InputWord.mk .c) ?reset, congrArg (InputWord.mk .c) ?poll, congrArg (InputWord.mk .c) ?idle⟩,
    fun cfg l => decode_encode (l.instr_wf cfg)⟩
  case dPoll => simp [Line.instr, encode, wordD]
  case bReset => exact (wordB_eq_sum cfg true false r _).trans (by simp [nowField])
  case bPoll => exact (wordB_eq_sum cfg false true r _).trans (by simp [nowField])
  case bIdle => simp [Line.instr, encode, wordB]
  case reset => exact (wordC_eq_sum cfg true false _ _ r _).trans (by
      rw [code_toNat_eq s, nowField, Bool.toNat_true, Bool.toNat_false]; ring)
  case poll => exact (wordC_eq_sum cfg false true _ _ r _).trans (by
      rw [code_toNat_eq s, nowField, Bool.toNat_true, Bool.toNat_false]; ring)
  case idle => simp [Line.instr, encode, wordC]

namespace Machine

/-- The sum of a poll of the sample just loaded: a code against itself is no step. -/
theorem EncoderState.sum_load_self (cfg : Config) (sample : Code) : (EncoderState.load sample).sum cfg sample = 0 := by
  rw [EncoderState.sum_of_inv (EncoderState.load_inv cfg sample)]
  simp [EncoderState.load]

/-- A sum of 0 is no event and is kept. -/
theorem detent_zero (cfg : Config) : detentCode cfg 0 = 0b00 ∧ storedSteps cfg 0 = 0 := by
  have hp := cfg.threshold_pos
  rcases detent_cases cfg 0 with ⟨hreach, -⟩ | ⟨hreach, -⟩ | ⟨-, -, hcode, hstored⟩
  · omega
  · omega
  · exact ⟨hcode, hstored⟩

theorem EncoderState.poll_load_self (cfg : Config) (sample : Code) :
    (EncoderState.load sample).poll cfg sample = EncoderState.load sample := by
  rw [EncoderState.poll, EncoderState.sum_load_self, (detent_zero cfg).2, EncoderState.load]

theorem EncoderState.event_load_self (cfg : Config) (sample : Code) :
    (EncoderState.load sample).event cfg sample = 0b00 := by
  rw [EncoderState.event, EncoderState.sum_load_self, (detent_zero cfg).1]

/-- Polling the sample just loaded is loading it again, without an event. -/
theorem after_dPoll_of_loaded {s : State} {sample : Code} (h : s.enc = EncoderState.load sample) (tick : Bool) :
    after (.dPoll sample) s = after (.dReset tick sample) s := by
  refine State.eq_of_fields rfl ?_ rfl rfl ?_
  · rw [after_enc, after_enc, h]
    exact EncoderState.poll_load_self s.cfg sample
  · rw [after_out, after_out, h]
    exact congrArg Output.d (EncoderState.event_load_self s.cfg sample)

/-- Settles O7: the two runs are equal after their first operation. -/
theorem firstSampleMayBeAResetOrAPoll : Obligations.FirstSampleMayBeAResetOrAPoll := by
  intro s s0 rest hprev hacc
  have hloaded : s.enc = EncoderState.load s0 := by
    rw [← hprev, EncoderState.load, ← hacc]
  have hexpand : ((Pseudo.dSeq s0 rest).expand s.cfg).map (Line.instr s.cfg)
      = .dReset false s0 :: rest.map .dPoll := by
    simp [Pseudo.expand, Line.instr]
  rw [hexpand, runOps_cons _ _ s rfl, runOps_cons _ _ s rfl, after_dPoll_of_loaded hloaded false]

/-! ## One step (R44, R50, R55, R57) -/

/-- Settles O8: the pending word is fetched, and what it decodes to is executed. -/
theorem stepRunsTheDecodedOperation : Obligations.StepRunsTheDecodedOperation := by
  intro s w rest i hin hdecode
  simp only [step, fetch_cons s w rest hin, hdecode, State.setInputs]

theorem decode_of_le {cfg : Config} {f : Format} {w : Nat} (h : 2 ^ f.width cfg ≤ w) :
    decode cfg f w = .error (.tooWide f w) :=
  if_neg (Nat.not_lt.2 h)

theorem exists_decode_of_lt {cfg : Config} {f : Format} {w : Nat} (h : w < 2 ^ f.width cfg) :
    ∃ i, decode cfg f w = .ok i := by
  cases f <;> exact ⟨_, if_pos h⟩

/-- A step at a number too wide for its format. -/
theorem step_of_tooWide {s : State} {w : InputWord} {rest : List InputWord} (hin : s.inputs = w :: rest)
    (hwide : 2 ^ w.format.width s.cfg ≤ w.bits) : step s = .refused (.notAWord (.tooWide w.format w.bits)) := by
  simp only [step, fetch_cons s w rest hin, decode_of_le hwide]

/-- A step at a word runs an operation of the word's format on the state that waits for the next word. -/
theorem exists_step_eq_exec {s : State} {w : InputWord} {rest : List InputWord} (hin : s.inputs = w :: rest)
    (hfits : w.bits < 2 ^ w.format.width s.cfg) :
    ∃ i : Instr, i.format = w.format ∧ step s = exec i (s.setInputs rest) := by
  obtain ⟨i, hdecode⟩ := exists_decode_of_lt hfits
  exact ⟨i, (encode_of_decode hdecode).1, stepRunsTheDecodedOperation s w rest i hin hdecode⟩

theorem State.setInputs_hasModule (s : State) (ws : List InputWord) (f : Format) :
    (s.setInputs ws).hasModule f = s.hasModule f := by
  cases f <;> rfl

/-- A step at a word of a module the instance has. -/
theorem exists_step_eq_next {s : State} {w : InputWord} {rest : List InputWord} (hin : s.inputs = w :: rest)
    (hfits : w.bits < 2 ^ w.format.width s.cfg) (hmodule : s.hasModule w.format = true) :
    ∃ i, step s = .next (after i (s.setInputs rest)) := by
  obtain ⟨i, hformat, hstep⟩ := exists_step_eq_exec hin hfits
  exact ⟨i, by rw [hstep, exec_eq i _ (by rw [State.setInputs_hasModule, hformat, hmodule])]⟩

/-- A step at a word of a module the instance lacks. -/
theorem step_of_absent {s : State} {w : InputWord} {rest : List InputWord} (hin : s.inputs = w :: rest)
    (hfits : w.bits < 2 ^ w.format.width s.cfg) (hmodule : s.hasModule w.format = false) :
    step s = .refused .noDebouncer := by
  obtain ⟨i, hformat, hstep⟩ := exists_step_eq_exec hin hfits
  rw [hstep, exec_absent i _ (by rw [State.setInputs_hasModule, hformat, hmodule])]

/-- What a step that goes on found pending, and where it leads. -/
theorem eq_after_of_step {s t : State} (h : step s = .next t) :
    ∃ w rest i, s.inputs = w :: rest ∧ decode s.cfg w.format w.bits = .ok i ∧ s.hasModule i.format = true
      ∧ t = after i (s.setInputs rest) := by
  obtain ⟨-, hstop⟩ | ⟨w, rest, hin, ⟨e, -, hstop⟩ | ⟨i, -, -, hstop⟩ | ⟨i, hdecode, hmodule, hnext⟩⟩ := step_cases s
  · cases hstop.symm.trans h
  · cases hstop.symm.trans h
  · cases hstop.symm.trans h
  · exact ⟨w, rest, i, hin, hdecode, hmodule, Host.Outcome.next.inj (h.symm.trans hnext)⟩

/-- Settles O9: the cases of a step, by the pending words, the width of the first and the modules of the instance. -/
theorem stepGoesOnExactlyWithAWord : Obligations.StepGoesOnExactlyWithAWord := by
  intro s
  refine ⟨⟨?_, ?_⟩, fun hnone => ?_, fun _ _ hin => step_of_tooWide hin, fun _ _ hin => step_of_absent hin, ?_⟩
  · rintro ⟨t, hstep⟩
    obtain ⟨w, rest, i, hin, hdecode, hmodule, -⟩ := eq_after_of_step hstep
    obtain ⟨hformat, -⟩ := encode_of_decode hdecode
    exact ⟨w, rest, hin, lt_of_decode hdecode, hformat ▸ hmodule⟩
  · rintro ⟨w, rest, hin, hfits, hmodule⟩
    obtain ⟨i, hnext⟩ := exists_step_eq_next hin hfits hmodule
    exact ⟨_, hnext⟩
  · simp only [step, fetch_nil s hnone]
  · intro t hstep
    obtain ⟨w, rest, i, hin, -, -, rfl⟩ := eq_after_of_step hstep
    exact ⟨rfl, w, hin⟩

/-! ## What an operation depends on, and when it reports (R50) -/

/-- An operation that is no poll drives no event. -/
theorem outDuring_of_not_poll {i : Instr} (h : i.isPoll = false) (cfg : Config) (e : EncoderState)
    (btn : Option ButtonState) :
    (outDuring cfg e btn i).detent = 0b00 ∧ (outDuring cfg e btn i).press = false := by
  cases i
  case dPoll | bPoll | poll => cases h
  all_goals exact ⟨rfl, rfl⟩

/-- Settles O12: the fields of `after` are functions of the registers, and its outputs are events in a poll only. -/
theorem outputsFollowStateAndInputOnly : Obligations.OutputsFollowStateAndInputOnly := by
  refine ⟨fun i s1 s2 t1 t2 hcfg henc hbtn h1 h2 => ?_, fun i s t h hevent => ?_⟩
  · obtain ⟨rfl, -⟩ := eq_after_of_exec h1
    obtain ⟨rfl, -⟩ := eq_after_of_exec h2
    simp only [after_out, after_enc, after_btn, hcfg, henc, hbtn, and_self]
  · obtain ⟨rfl, -⟩ := eq_after_of_exec h
    by_contra hpoll
    obtain ⟨hdetent, hpress⟩ := outDuring_of_not_poll (Bool.eq_false_of_not_eq_true hpoll) s.cfg s.enc s.btn
    rcases hevent with hne | htrue
    · exact hne hdetent
    · exact Bool.false_ne_true (hpress.symm.trans htrue)

/-! ## Idle cycles (R44, D4) -/

/-- No operation reads the outputs of the cycle before. -/
theorem exec_setOut (i : Instr) (s : State) (o : Output) : exec i (s.setOut o) = exec i s := by
  have hsame : (s.setOut o).hasModule i.format = s.hasModule i.format := by cases i.format <;> rfl
  cases hmodule : s.hasModule i.format with
  | false => rw [exec_absent i s hmodule, exec_absent i _ (hsame.trans hmodule)]
  | true => rw [exec_eq i s hmodule, exec_eq i _ (hsame.trans hmodule)]; rfl

/-- An idle operation only drives its outputs, with zeros. -/
theorem after_of_isIdle {i : Instr} (h : i.isIdle = true) (s : State) :
    ∃ o : Output, o.word = 0 ∧ after i s = s.setOut o := by
  cases i
  case dIdle | bIdle | idle => exact ⟨_, rfl, rfl⟩
  all_goals cases h

/-- A run of idle operations completes with zeros and leaves all but the last outputs. -/
theorem runOps_idles (idles : List Instr) (s : State)
    (h : ∀ i ∈ idles, i.isIdle = true ∧ s.hasModule i.format = true) :
    ∃ outs o, runOps idles s = some (outs, s.setOut o) ∧ ∀ o ∈ outs, o.word = 0 := by
  induction idles generalizing s with
  | nil => exact ⟨[], s.out, rfl, by simp⟩
  | cons i rest ih =>
    obtain ⟨⟨hidle, hmodule⟩, hrest⟩ := List.forall_mem_cons.1 h
    obtain ⟨o, hzero, hafter⟩ := after_of_isIdle hidle s
    obtain ⟨outs, last, hrun, hzeros⟩ := ih (after i s) (by simpa only [after_hasModule] using hrest)
    refine ⟨(after i s).out :: outs, last, ?_, List.forall_mem_cons.2 ⟨?_, hzeros⟩⟩
    · rw [runOps_cons i rest s hmodule, hrun, hafter]; rfl
    · rw [hafter]; exact hzero

/-- Settles O13: after idle cycles only the outputs differ, and no operation reads those. -/
theorem idleCyclesAreInvisible : Obligations.IdleCyclesAreInvisible := by
  intro idles s hidles
  obtain ⟨outs, o, hrun, hzeros⟩ := runOps_idles idles s hidles
  exact ⟨outs, s.setOut o, hrun, hzeros, rfl, rfl, rfl, rfl, fun next => exec_setOut next s o⟩

end Machine

end Sys2Proof
end

section
/-! SUPPORT. The statements of the family 40_quadrature_decoder: the effect of DECODE and of its rows (R61), the gate
form of the table (R63), the forward cycle and the complement of a code as the table sees them (R62, R64, R66), and the
words the spec writes out. -/

namespace Sys2Proof

namespace Machine

/-! ## DECODE and its rows (R61) -/

/-- Settles O15: a word of format Q is the word of its codes, and every operation of the format drives the entry of the
pair it looks up. -/
theorem decodeDrivesTheTableEntry : Obligations.DecodeDrivesTheTableEntry := by
  refine fun s => ⟨fun prev cur => ⟨decode_wordQ s.cfg prev cur, ?row, exec_of_format_q rfl s⟩, ?rows⟩
  case row => exact (exec_decodeRow prev cur s).trans (exec_of_format_q rfl s)
  case rows =>
    and_intros
    all_goals exact exec_of_format_q rfl s

/-! ## The table as gates (R63) -/

/-- The table is the gate form with the sign test `pa xor cb`. -/
theorem stepOf_sampleOf (pa pb ca cb : Bool) :
    stepOf (sampleOf pa pb) (sampleOf ca cb)
      = if !((pa ^^ ca) ^^ (pb ^^ cb)) then 0b00 else if pa ^^ cb then 0b01 else 0b11 := by
  revert pa pb ca cb; decide

/-- `moved` is also the exclusive or of the two sign tests: for a moved pair they are opposite. -/
theorem moved_eq_xor_signs (pa pb ca cb : Bool) :
    ((pa ^^ ca) ^^ (pb ^^ cb)) = ((pa ^^ cb) ^^ (pb ^^ ca)) := by
  simp only [Bool.xor_comm, Bool.xor_left_comm]

/-- Settles O16: the table is the first form, and the second is the first with the opposite sign test. -/
theorem gateFormAgreesWithTheTable : Obligations.GateFormAgreesWithTheTable := by
  refine fun pa pb ca cb => ⟨stepOf_sampleOf pa pb ca cb, ?second⟩
  case second =>
    rw [stepOf_sampleOf, moved_eq_xor_signs]
    cases pa ^^ cb <;> cases pb ^^ ca <;> rfl

/-! ## The forward cycle and the complement (R62, R64, R66) -/

/-- Exchanging the two codes negates the step. -/
theorem stepOf_swap (a b : Code) : stepOf b a = -stepOf a b := by
  revert a b; decide

/-- A later code with both channels changed negates the step. -/
theorem stepOf_not_right (a b : Code) : stepOf a (~~~b) = -stepOf a b := by
  revert a b; decide

/-- Two forward transitions change both channels. -/
theorem nextForward_nextForward (code : Code) : nextForward (nextForward code) = ~~~code := by
  revert code; decide

/-- The step is +1 to the next code of the cycle only (R62). -/
theorem stepOf_eq_forward_iff (a b : Code) : stepOf a b = 0b01 ↔ b = nextForward a := by
  revert a b; decide

/-- The step is -1 to the complement of that code only: the code before `a` on the cycle. -/
theorem stepOf_eq_backward_iff (a b : Code) : stepOf a b = 0b11 ↔ b = ~~~nextForward a :=
  calc stepOf a b = 0b11
    _ ↔ stepOf a (~~~b) = 0b01 := by rw [stepOf_not_right, neg_eq_iff_eq_neg]; rfl
    _ ↔ ~~~b = nextForward a := stepOf_eq_forward_iff a (~~~b)
    _ ↔ b = ~~~nextForward a := by rw [BitVec.not_eq_comm, eq_comm]

/-- The step is 0 when neither channel has changed, and when both have (R64). -/
theorem stepOf_eq_zero_iff (a b : Code) : stepOf a b = 0b00 ↔ b = a ∨ b = ~~~a := by
  revert a b; decide

/-- Antisymmetry as numbers: the one code without a negative is not in the table. -/
theorem stepOf_toInt_swap (a b : Code) : (stepOf a b).toInt = -(stepOf b a).toInt := by
  rw [stepOf_swap b a, BitVec.toInt_neg_of_ne_intMin (stepOf_ne_reserved b a)]

/-- Settles O17: the entries are counted in the table; the successors of a code are its two neighbours on the cycle,
itself and its complement. -/
theorem decodeIsAntisymmetric : Obligations.DecodeIsAntisymmetric := by
  refine ⟨fun a b => ⟨?range, stepOf_toInt_swap a b⟩, ?counts, fun a => ⟨?forward, ?backward, ?none⟩⟩
  case range => simpa only [List.mem_cons, List.not_mem_nil, or_false] using stepOf_cases a b
  case counts => decide
  case forward => exact ⟨nextForward a, stepOf_eq_forward_iff a⟩
  case backward => exact ⟨~~~nextForward a, stepOf_eq_backward_iff a⟩
  case none => exact stepOf_eq_zero_iff a

/-- Settles O18: one transition is forward, two are the complement, so the third turns the step around and the fourth
returns to the code. -/
theorem forwardCycleAndMissedTransitions : Obligations.ForwardCycleAndMissedTransitions := by
  intro code
  have hforward : stepOf code (nextForward code) = 0b01 := (stepOf_eq_forward_iff code _).2 rfl
  refine ⟨hforward, ?back, ?two, ?three, ?four⟩
  case back => rw [stepOf_swap, hforward]; rfl
  case two => rw [nextForward_nextForward, stepOf_complement]
  case three => rw [nextForward_nextForward (nextForward code), stepOf_not_right, hforward]; rfl
  case four => rw [nextForward_nextForward, nextForward_nextForward, BitVec.not_not]

end Machine

/-! ## Words the spec writes out -/

/-- Settles O5: each word is the word of the fields the spec states beside it. -/
theorem wordsOfTheSpecDecodeRight : Obligations.WordsOfTheSpecDecodeRight := by
  and_intros
  · exact decode_wordQ _ 0b00 0b01
  · exact decode_wordQ _ 0b01 0b00
  · exact decode_wordD _ true false 0b11
  · exact decode_wordD _ false true 0b00
  · exact decode_wordD _ false false 0b00
  · exact decode_wordB Config.reference true false true (now := 1000) (by decide)
  · exact decode_wordB Config.reference false true false (now := 30000) (by decide)
  · exact decode_wordC Config.reference true false false false true (now := 0) (by decide)
  · exact decode_wordC Config.reference true true false false false (now := 0) (by decide)
  · exact decode_wordC Config.reference false true false false false (now := 25000) (by decide)
  · exact decode_wordC Config.reference false true true false true (now := 1012000) (by decide)
  · exact decode_wordC Config.reference false false false false false (now := 0) (by decide)

end Sys2Proof
end

section
/-! SUPPORT. The statements of the family 41_detent_accumulator: the operations of the accumulator (R68, R69, R72), the
bound of the count and of the sum (R71, R73, R74), and what a sequence of polls adds up to (R75, R76). -/

namespace Sys2Proof.Machine

/-! ## The words and the effect of each operation (R68, R69, R72) -/

/-- Settles O19: the word is the one of its fields with `rst` set, and the effect is the load of the sample. -/
theorem dResetLoadsTheSample : Obligations.DResetLoadsTheSample :=
  fun s tick sample => ⟨decode_wordD s.cfg true tick sample, exec_eq (.dReset tick sample) s rfl⟩

/-- Settles O20: the word has both control bits 0, and only the outputs are written. -/
theorem dIdleChangesNothing : Obligations.DIdleChangesNothing := by
  refine fun s sample => ⟨?word, exec_eq (.dIdle sample) s rfl⟩
  case word => simpa [wordD] using decode_wordD s.cfg false false sample

/-- Where D_POLL leads, given the event and the count of its sum. -/
theorem exec_dPoll_eq {s : State} {sample : Code} {code : Code2} {count : Int}
    (hcode : s.enc.event s.cfg sample = code) (hcount : (s.enc.poll s.cfg sample).accumulatedSteps = count) :
    exec (.dPoll sample) s
      = .next { s with enc := { previousSample := sample, accumulatedSteps := count }, out := .d code } := by
  rw [← hcode, ← hcount]
  exact exec_eq (.dPoll sample) s rfl

/-- Settles O21: the three branches are the three cases of the sum. -/
theorem dPollAccumulatesAndFires : Obligations.DPollAccumulatesAndFires := by
  intro s sample step sum
  have hp := s.cfg.threshold_pos
  refine ⟨?word, ?effect⟩
  case word => simpa [wordD] using decode_wordD s.cfg false true sample
  case effect =>
    rcases detent_cases s.cfg sum with ⟨hcw, hcode, hcount⟩ | ⟨hccw, hcode, hcount⟩ | ⟨hlo, hhi, hcode, hcount⟩
    · rw [if_pos hcw]
      exact exec_dPoll_eq hcode hcount
    · rw [if_neg (by omega), if_pos hccw]
      exact exec_dPoll_eq hcode hcount
    · rw [if_neg (by omega), if_neg (by omega)]
      exact exec_dPoll_eq hcode hcount

/-! ## One poll from a count in range (R71, R73, R74) -/

/-- From a count in range the sum is at most THRESHOLD in magnitude: a step is at most 1. -/
theorem EncoderState.sum_bounds {cfg : Config} {e : EncoderState} (he : e.Inv cfg) (sample : Code) :
    -(cfg.threshold : Int) ≤ e.sum cfg sample ∧ e.sum cfg sample ≤ cfg.threshold := by
  obtain ⟨hlo, hhi⟩ := he
  have hstep := stepOf_cases e.previousSample sample
  rw [EncoderState.sum_of_inv ⟨hlo, hhi⟩]
  omega

/-- Settles O22: the sum is at most THRESHOLD in magnitude, and THRESHOLD fits the register. -/
theorem sumNeverOverflows : Obligations.SumNeverOverflows := by
  intro cfg e sample he
  obtain ⟨hlo, hhi⟩ := EncoderState.sum_bounds he sample
  exact ⟨EncoderState.sum_of_inv he sample, hlo, hhi, Int.le_sub_one_of_lt (Config.threshold_lt cfg).2⟩

/-- What a poll can do from a count in range: an event at exactly plus or minus THRESHOLD, with the count 0, or no event
and the step added. -/
theorem EncoderState.poll_cases {cfg : Config} {e : EncoderState} (he : e.Inv cfg) (sample : Code) :
    (e.sum cfg sample = cfg.threshold ∧ e.event cfg sample = 0b01 ∧ (e.poll cfg sample).accumulatedSteps = 0)
    ∨ (e.sum cfg sample = -(cfg.threshold : Int) ∧ e.event cfg sample = 0b11
      ∧ (e.poll cfg sample).accumulatedSteps = 0)
    ∨ (|e.sum cfg sample| < cfg.threshold ∧ e.event cfg sample = 0b00
      ∧ (e.poll cfg sample).accumulatedSteps = e.sum cfg sample) := by
  obtain ⟨hlo, hhi⟩ := EncoderState.sum_bounds he sample
  rcases detent_cases cfg (e.sum cfg sample) with ⟨hcw, hrest⟩ | ⟨hccw, hrest⟩ | ⟨hgt, hlt, hrest⟩
  · exact .inl ⟨by omega, hrest⟩
  · exact .inr (.inl ⟨by omega, hrest⟩)
  · exact .inr (.inr ⟨abs_lt.2 ⟨hgt, hlt⟩, hrest⟩)

/-- A poll with a sum strictly inside the threshold adds its step and reports nothing. -/
theorem EncoderState.poll_of_inside {cfg : Config} {e : EncoderState} (he : e.Inv cfg) {sample : Code}
    (hinside : |e.accumulatedSteps + (stepOf e.previousSample sample).toInt| < cfg.threshold) :
    e.event cfg sample = 0b00
    ∧ (e.poll cfg sample).accumulatedSteps = e.accumulatedSteps + (stepOf e.previousSample sample).toInt := by
  rw [← EncoderState.sum_of_inv he] at hinside ⊢
  obtain ⟨hlo, hhi⟩ := abs_lt.1 hinside
  rcases EncoderState.poll_cases he sample with ⟨hsum, -⟩ | ⟨hsum, -⟩ | ⟨-, hrest⟩
  · omega
  · omega
  · exact hrest

/-- A poll without a step keeps the count and reports nothing. -/
theorem EncoderState.poll_of_step_zero {cfg : Config} {e : EncoderState} (he : e.Inv cfg) {sample : Code}
    (hstep : (stepOf e.previousSample sample).toInt = 0) :
    e.event cfg sample = 0b00 ∧ (e.poll cfg sample).accumulatedSteps = e.accumulatedSteps := by
  have hinside := EncoderState.poll_of_inside he (sample := sample)
  rw [hstep, add_zero] at hinside
  exact hinside (abs_lt.2 he)

/-- Settles O23: by the cases of the sum, in range or not. -/
theorem eventResetsTheCountToZero : Obligations.EventResetsTheCountToZero := by
  intro s t sample h
  have hp := s.cfg.threshold_pos
  obtain ⟨rfl, -⟩ := eq_after_of_exec h
  have hout : (after (.dPoll sample) s).out = .d (s.enc.event s.cfg sample) := rfl
  rw [hout]
  refine ⟨fun hevent => ?reset, by omega, fun hinv => ⟨abs_le.2 (EncoderState.sum_bounds hinv sample), ?exact⟩⟩
  case reset =>
    rcases detent_cases s.cfg (s.enc.sum s.cfg sample) with ⟨-, -, hcount⟩ | ⟨-, -, hcount⟩ | ⟨-, -, hcode, -⟩
    · exact hcount
    · exact hcount
    · exact absurd (congrArg Output.d hcode) hevent
  case exact =>
    rcases EncoderState.poll_cases hinv sample with ⟨hsum, hcode, -⟩ | ⟨hsum, hcode, -⟩ | ⟨hsum, hcode, -⟩
    · rw [hcode, hsum]
      exact ⟨iff_of_true rfl rfl, iff_of_false (by decide) (by omega)⟩
    · rw [hcode, hsum]
      exact ⟨iff_of_false (by decide) (by omega), iff_of_true rfl rfl⟩
    · obtain ⟨hlo, hhi⟩ := abs_lt.1 hsum
      rw [hcode]
      exact ⟨iff_of_false (by decide) (by omega), iff_of_false (by decide) (by omega)⟩

/-! ## A sequence of polls

The run of `dPoll` operations, reduced once to its events and its last registers; the laws are then about those. -/

/-- The `detent` codes of a sequence of polls. -/
def EncoderState.events (cfg : Config) : EncoderState → List Code → List Code2
  | _, [] => []
  | e, sample :: rest => e.event cfg sample :: EncoderState.events cfg (e.poll cfg sample) rest

/-- The registers after a sequence of polls. -/
def EncoderState.polls (cfg : Config) (e : EncoderState) (samples : List Code) : EncoderState :=
  samples.foldl (EncoderState.poll cfg) e

@[simp] theorem EncoderState.events_nil (cfg : Config) (e : EncoderState) : e.events cfg [] = [] := rfl

@[simp] theorem EncoderState.events_cons (cfg : Config) (e : EncoderState) (sample : Code) (rest : List Code) :
    e.events cfg (sample :: rest) = e.event cfg sample :: (e.poll cfg sample).events cfg rest := rfl

@[simp] theorem EncoderState.polls_nil (cfg : Config) (e : EncoderState) : e.polls cfg [] = e := rfl

@[simp] theorem EncoderState.polls_cons (cfg : Config) (e : EncoderState) (sample : Code) (rest : List Code) :
    e.polls cfg (sample :: rest) = (e.poll cfg sample).polls cfg rest := rfl

@[simp] theorem pathSteps_nil (previous : Code) : pathSteps previous [] = [] := rfl

@[simp] theorem pathSteps_cons (previous current : Code) (rest : List Code) :
    pathSteps previous (current :: rest) = (stepOf previous current).toInt :: pathSteps current rest := rfl

/-- Polls complete in every state, with these events and these last registers. -/
theorem runOps_dPolls (samples : List Code) (s : State) :
    ∃ t, runOps (samples.map .dPoll) s = some ((s.enc.events s.cfg samples).map .d, t)
      ∧ t.enc = s.enc.polls s.cfg samples := by
  induction samples generalizing s with
  | nil => exact ⟨s, rfl, rfl⟩
  | cons sample rest ih =>
    obtain ⟨t, hrun, henc⟩ := ih (after (.dPoll sample) s)
    exact ⟨t, by rw [List.map_cons, runOps_cons _ _ s rfl, hrun]; rfl, henc⟩

@[simp] theorem EncoderState.events_length (cfg : Config) (e : EncoderState) (samples : List Code) :
    (e.events cfg samples).length = samples.length := by
  induction samples generalizing e with
  | nil => rfl
  | cons sample rest ih => exact congrArg (· + 1) (ih _)

/-- Polls keep the count in range (R25). -/
theorem EncoderState.polls_inv {cfg : Config} {e : EncoderState} (he : e.Inv cfg) (samples : List Code) :
    (e.polls cfg samples).Inv cfg := by
  induction samples generalizing e with
  | nil => exact he
  | cons sample rest ih => exact ih (e.poll_inv cfg sample)

/-! ## The accounting of the steps (R71, R72) -/

/-- One poll: the count it leaves and the event it reports make up the count before and the step. -/
theorem EncoderState.poll_accounts {cfg : Config} {e : EncoderState} (he : e.Inv cfg) (sample : Code) :
    (e.poll cfg sample).accumulatedSteps
        + cfg.threshold * (([e.event cfg sample].count 0b01 : Int) - [e.event cfg sample].count 0b11)
      = e.accumulatedSteps + (stepOf e.previousSample sample).toInt := by
  rw [← EncoderState.sum_of_inv he]
  rcases EncoderState.poll_cases he sample with ⟨hsum, hcode, hcount⟩ | ⟨hsum, hcode, hcount⟩ | ⟨-, hcode, hcount⟩
  · rw [hcode, hcount, hsum]; simp
  · rw [hcode, hcount, hsum]; simp
  · rw [hcode, hcount]; simp

/-- A sequence of polls: the sum of what each accounts for. -/
theorem EncoderState.polls_account {cfg : Config} {e : EncoderState} (he : e.Inv cfg) (samples : List Code) :
    (e.polls cfg samples).accumulatedSteps
        + cfg.threshold * (((e.events cfg samples).count 0b01 : Int) - (e.events cfg samples).count 0b11)
      = e.accumulatedSteps + (pathSteps e.previousSample samples).sum := by
  induction samples generalizing e with
  | nil => simp
  | cons sample rest ih =>
    have hfirst := EncoderState.poll_accounts he sample
    have hrest := ih (e.poll_inv cfg sample)
    have hcount : ∀ code, (e.events cfg (sample :: rest)).count code
        = [e.event cfg sample].count code + ((e.poll cfg sample).events cfg rest).count code :=
      fun code => List.count_append (l₁ := [e.event cfg sample])
    rw [EncoderState.poll_previousSample] at hrest
    rw [hcount, hcount, EncoderState.polls_cons, pathSteps_cons, List.sum_cons]
    push_cast
    linear_combination hfirst + hrest

theorem Output.d_injective : Function.Injective Output.d := fun _ _ h => Output.d.inj h

/-- Settles O25: a run of polls has the events and the registers that the accounting is about. -/
theorem stepsAreAccountedFor : Obligations.StepsAreAccountedFor := by
  intro s samples hinv
  obtain ⟨t, hrun, henc⟩ := runOps_dPolls samples s
  refine ⟨_, t, hrun, ?_, ?_⟩
  · rw [henc]
    exact EncoderState.polls_inv hinv samples
  · rw [List.count_map_of_injective _ _ Output.d_injective, List.count_map_of_injective _ _ Output.d_injective, henc]
    exact EncoderState.polls_account hinv samples

/-! ## Steps that cancel (R76) -/

/-- A path whose running count stays strictly inside the threshold reports nothing and adds up. -/
theorem EncoderState.polls_of_inside {cfg : Config} {e : EncoderState} {samples : List Code}
    (hinside : ∀ k, k ≤ samples.length →
      |e.accumulatedSteps + ((pathSteps e.previousSample samples).take k).sum| < (cfg.threshold : Int)) :
    (∀ code ∈ e.events cfg samples, code = 0b00)
    ∧ (e.polls cfg samples).accumulatedSteps = e.accumulatedSteps + (pathSteps e.previousSample samples).sum := by
  induction samples generalizing e with
  | nil => simp
  | cons sample rest ih =>
    have hinv : e.Inv cfg := abs_lt.1 (by simpa using hinside 0 (Nat.zero_le _))
    obtain ⟨hcode, hcount⟩ := EncoderState.poll_of_inside hinv (sample := sample)
      (by simpa using hinside 1 (by simp))
    obtain ⟨hcodes, hlast⟩ := ih (e := e.poll cfg sample) fun k hk => by
      simpa [hcount, add_assoc] using hinside (k + 1) (by simpa using hk)
    refine ⟨List.forall_mem_cons.2 ⟨hcode, hcodes⟩, hlast.trans ?_⟩
    rw [hcount, pathSteps_cons, List.sum_cons, add_assoc, EncoderState.poll_previousSample]

/-- Settles O26: the first clause is the law of a path inside the threshold, the second a poll without a step. -/
theorem stepsCancelBelowTheThreshold : Obligations.StepsCancelBelowTheThreshold := by
  refine ⟨fun s samples hinside => ?path, fun s hinv => ?jump⟩
  case path =>
    obtain ⟨t, hrun, henc⟩ := runOps_dPolls samples s
    obtain ⟨hcodes, hlast⟩ := EncoderState.polls_of_inside hinside
    exact ⟨_, t, hrun, List.forall_mem_map.2 fun code hcode => congrArg Output.d (hcodes code hcode), henc ▸ hlast⟩
  case jump =>
    have hstep : (stepOf s.enc.previousSample (~~~s.enc.previousSample)).toInt = 0 := by rw [stepOf_complement]; rfl
    obtain ⟨hcode, hcount⟩ := EncoderState.poll_of_step_zero hinv hstep
    exact exec_dPoll_eq hcode hcount

/-! ## The counting law (R75)

Both directions at once: `code` is the event code of the direction, and its value as a number the step. -/

/-- The remainder of a count after one more step: back to 0 at a multiple, else one more. -/
theorem succ_mod_cases {threshold : Nat} (hp : 1 ≤ threshold) (n : Nat) :
    (n % threshold + 1 = threshold ∧ threshold ∣ n + 1 ∧ (n + 1) % threshold = 0)
    ∨ (n % threshold + 1 < threshold ∧ ¬threshold ∣ n + 1 ∧ (n + 1) % threshold = n % threshold + 1) := by
  have hlt : n % threshold < threshold := Nat.mod_lt _ hp
  have hsucc : (n % threshold + 1) % threshold = (n + 1) % threshold := Nat.mod_add_mod n threshold 1
  rcases Nat.lt_or_eq_of_le (Nat.succ_le_of_lt hlt) with hless | heq
  · rw [Nat.mod_eq_of_lt hless] at hsucc
    exact .inr ⟨hless, by rw [Nat.dvd_iff_mod_eq_zero]; omega, hsucc.symm⟩
  · rw [← Nat.succ_eq_add_one (n % threshold), heq, Nat.mod_self] at hsucc
    exact .inl ⟨heq, Nat.dvd_of_mod_eq_zero hsucc.symm, hsucc.symm⟩

/-- A sum of THRESHOLD in a direction is an event of that direction and clears the count. -/
theorem EncoderState.poll_of_reaches {cfg : Config} {e : EncoderState} {code : Code2} {sample : Code}
    (hdir : code = 0b01 ∨ code = 0b11) (hsum : e.sum cfg sample = code.toInt * cfg.threshold) :
    (e.poll cfg sample).accumulatedSteps = 0 ∧ e.event cfg sample = code := by
  have hp := cfg.threshold_pos
  rcases hdir with rfl | rfl
  · have hreach : e.sum cfg sample = cfg.threshold := hsum.trans (one_mul _)
    rcases detent_cases cfg (e.sum cfg sample) with ⟨-, hcode, hcount⟩ | ⟨hccw, -⟩ | ⟨-, hlt, -⟩
    · exact ⟨hcount, hcode⟩
    · omega
    · omega
  · have hreach : e.sum cfg sample = -(cfg.threshold : Int) := hsum.trans (neg_one_mul _)
    rcases detent_cases cfg (e.sum cfg sample) with ⟨hcw, -⟩ | ⟨-, hcode, hcount⟩ | ⟨hgt, -⟩
    · omega
    · exact ⟨hcount, hcode⟩
    · omega

theorem abs_direction_mul {code : Code2} (hdir : code = 0b01 ∨ code = 0b11) (n : Nat) : |code.toInt * n| = n := by
  have hunit : |code.toInt| = 1 := by rcases hdir with rfl | rfl <;> rfl
  rw [abs_mul, hunit, one_mul, Nat.abs_cast]

section
variable {cfg : Config} {e : EncoderState} {code : Code2} {n : Nat}
  (hdir : code = 0b01 ∨ code = 0b11) (hn : e.accumulatedSteps = code.toInt * (n % cfg.threshold : Nat))
include hdir hn

/-- The count after `n` steps of one direction is in range. -/
theorem EncoderState.inv_of_count : e.Inv cfg := by
  refine abs_lt.1 ?_
  rw [hn, abs_direction_mul hdir]
  exact_mod_cast Nat.mod_lt _ cfg.threshold_pos

/-- Step `n + 1` of the direction: an event exactly at a multiple of THRESHOLD. -/
theorem EncoderState.poll_of_step_code {sample : Code} (hstep : (stepOf e.previousSample sample).toInt = code.toInt) :
    (e.poll cfg sample).accumulatedSteps = code.toInt * ((n + 1) % cfg.threshold : Nat)
    ∧ e.event cfg sample = if cfg.threshold ∣ n + 1 then code else 0b00 := by
  have hinv : e.Inv cfg := EncoderState.inv_of_count hdir hn
  have hsum : e.accumulatedSteps + (stepOf e.previousSample sample).toInt
      = code.toInt * (n % cfg.threshold + 1 : Nat) := by
    rw [hn, hstep]; push_cast; ring
  rcases succ_mod_cases cfg.threshold_pos n with ⟨hfull, hdvd, hmod⟩ | ⟨hless, hdvd, hmod⟩
  · rw [hfull, ← EncoderState.sum_of_inv hinv] at hsum
    rw [if_pos hdvd, hmod]
    simpa using EncoderState.poll_of_reaches hdir hsum
  · obtain ⟨hcode, hcount⟩ := EncoderState.poll_of_inside (sample := sample) hinv (by
      rw [hsum, abs_direction_mul hdir]; exact_mod_cast hless)
    rw [if_neg hdvd, hmod]
    exact ⟨hcount.trans hsum, hcode⟩

/-- One poll whose step is that of the direction or 0, `n` the steps before it. -/
theorem EncoderState.poll_counts {sample : Code} {x : Int} (hx : (stepOf e.previousSample sample).toInt = x)
    (hstep : x = code.toInt ∨ x = 0) :
    (e.poll cfg sample).accumulatedSteps = code.toInt * ((n + [x].count code.toInt) % cfg.threshold : Nat)
    ∧ (e.event cfg sample = 0b00 ∨ e.event cfg sample = code)
    ∧ (e.event cfg sample = code ↔ x = code.toInt ∧ cfg.threshold ∣ n + [x].count code.toInt) := by
  have hne : code ≠ 0b00 ∧ code.toInt ≠ 0 := by rcases hdir with rfl | rfl <;> decide
  obtain ⟨hcode0, hint0⟩ := hne
  rcases hstep with rfl | rfl
  · obtain ⟨hcount, hevent⟩ := EncoderState.poll_of_step_code hdir hn hx
    rw [List.count_singleton_self, hevent]
    exact ⟨hcount, (ite_eq_or_eq _ _ _).symm, hcode0.ite_eq_left_iff.trans (and_iff_right rfl).symm⟩
  · obtain ⟨hevent, hcount⟩ := EncoderState.poll_of_step_zero (EncoderState.inv_of_count hdir hn) hx
    rw [List.count_singleton, hevent, hcount]
    exact ⟨by simpa [hint0.symm] using hn, .inl rfl, iff_of_false hcode0.symm fun h => hint0 h.1.symm⟩

/-- A sequence of polls whose steps are that of the direction or 0, `n` the steps before it. -/
theorem EncoderState.polls_count {samples : List Code}
    (hsteps : ∀ x ∈ pathSteps e.previousSample samples, x = code.toInt ∨ x = 0) :
    (e.polls cfg samples).accumulatedSteps
        = code.toInt * ((n + (pathSteps e.previousSample samples).count code.toInt) % cfg.threshold : Nat)
    ∧ (∀ o ∈ e.events cfg samples, o = 0b00 ∨ o = code)
    ∧ ∀ k, (e.events cfg samples)[k]? = some code ↔
        (pathSteps e.previousSample samples)[k]? = some code.toInt
        ∧ cfg.threshold ∣ n + ((pathSteps e.previousSample samples).take (k + 1)).count code.toInt := by
  induction samples generalizing e n with
  | nil => exact ⟨by simpa using hn, by simp, by simp⟩
  | cons sample rest ih =>
    obtain ⟨hfirst, hrest⟩ := List.forall_mem_cons.1 hsteps
    obtain ⟨hcount, hcode, hevent⟩ := EncoderState.poll_counts hdir hn rfl hfirst
    obtain ⟨hlast, hcodes, hevents⟩ := ih hcount hrest
    have hcons : ∀ xs : List Int, n + ((stepOf e.previousSample sample).toInt :: xs).count code.toInt
        = n + [(stepOf e.previousSample sample).toInt].count code.toInt + xs.count code.toInt := fun xs => by
      rw [Nat.add_assoc, ← List.count_append, List.singleton_append]
    refine ⟨?last, List.forall_mem_cons.2 ⟨hcode, hcodes⟩, fun k => ?event⟩
    case last => rw [pathSteps_cons, hcons]; exact hlast
    case event =>
      rw [pathSteps_cons, List.take_succ_cons, hcons]
      cases k with
      | zero => simpa using hevent
      | succ k => simpa using hevents k

end

/-- The counting law of one direction, for the outputs of a run that starts with a count of 0. -/
theorem outputs_count {s : State} (hzero : s.enc.accumulatedSteps = 0) {samples : List Code} {code : Code2}
    (hdir : code = 0b01 ∨ code = 0b11)
    (hsteps : ∀ x ∈ pathSteps s.enc.previousSample samples, x = code.toInt ∨ x = 0) :
    (s.enc.polls s.cfg samples).accumulatedSteps
        = code.toInt * ((pathSteps s.enc.previousSample samples).count code.toInt % s.cfg.threshold : Nat)
    ∧ (∀ o ∈ (s.enc.events s.cfg samples).map Output.d, o = .d 0b00 ∨ o = .d code)
    ∧ ∀ k, k < samples.length → (((s.enc.events s.cfg samples).map Output.d)[k]? = some (.d code) ↔
        (pathSteps s.enc.previousSample samples)[k]? = some code.toInt
        ∧ s.cfg.threshold ∣ ((pathSteps s.enc.previousSample samples).take (k + 1)).count code.toInt) := by
  obtain ⟨hlast, hcodes, hevents⟩ := EncoderState.polls_count (n := 0) hdir (by simpa using hzero) hsteps
  simp only [Nat.zero_add] at hlast hevents
  refine ⟨hlast, List.forall_mem_map.2 fun o ho => ?_, fun k _ => ?_⟩
  · exact (hcodes o ho).imp (congrArg Output.d) (congrArg Output.d)
  · rw [← hevents k]
    simp

/-- Settles O24: the counting law in each direction, for the one run. -/
theorem detentsCountTheSteps : Obligations.DetentsCountTheSteps := by
  intro s samples hzero steps
  obtain ⟨t, hrun, henc⟩ := runOps_dPolls samples s
  refine ⟨_, t, hrun, by simp, fun hsteps => ?clockwise, fun hsteps => ?counterClockwise⟩
  case clockwise =>
    rw [henc, ← one_mul ((_ : Nat) : Int)]
    exact outputs_count hzero (.inl rfl) hsteps
  case counterClockwise =>
    rw [henc, ← neg_one_mul]
    exact outputs_count hzero (.inr rfl) hsteps

/-! ## Degenerate parameters (U15, U16) -/

/-- With THRESHOLD = 1 the only count in range is 0, so the event of a poll is its step. -/
theorem EncoderState.poll_of_threshold_one {cfg : Config} (hone : cfg.threshold = 1) {e : EncoderState} (he : e.Inv cfg)
    (sample : Code) :
    e.event cfg sample = stepOf e.previousSample sample ∧ (e.poll cfg sample).accumulatedSteps = 0 := by
  obtain ⟨hlo, hhi⟩ := he
  obtain ⟨hlo', hhi'⟩ := e.poll_inv cfg sample
  have hsum : e.sum cfg sample = (stepOf e.previousSample sample).toInt := by
    rw [EncoderState.sum_of_inv ⟨hlo, hhi⟩]; omega
  refine ⟨BitVec.eq_of_toInt_eq ?_, by omega⟩
  rw [← hsum]
  rcases EncoderState.poll_cases ⟨hlo, hhi⟩ sample with ⟨hreach, hcode, -⟩ | ⟨hreach, hcode, -⟩ | ⟨hinside, hcode, -⟩
  · rw [hcode, hreach, hone]; rfl
  · rw [hcode, hreach, hone]; rfl
  · rw [hone, Nat.cast_one, Int.abs_lt_one_iff] at hinside
    rw [hcode, hinside]; rfl

/-- Settles O53: the first clause is the poll at THRESHOLD = 1; the second holds as no elapsed time is below a window
of 0. -/
theorem degenerateParameters : Obligations.DegenerateParameters := by
  refine ⟨fun s sample hone hinv => ?threshold, fun s raw now hbutton hwindow => ?window⟩
  case threshold =>
    obtain ⟨hcode, hcount⟩ := EncoderState.poll_of_threshold_one hone hinv sample
    exact exec_dPoll_eq hcode hcount
  case window =>
    obtain ⟨b, hb⟩ := State.exists_btn hbutton
    refine ⟨_, b.poll s.cfg raw now, exec_eq (.bPoll raw now) s hbutton, ?_, ?_⟩
    · rw [after_btn, hb]; rfl
    · rw [ButtonState.poll_previousLevel_eq_iff, hwindow]
      omega

end Sys2Proof.Machine
end

section
/-! SUPPORT. The statements of the family 42_button_debouncer: the operations of the debouncer (R78 to R80, R85, R87),
its elapsed time and window (R81, R82, R88), and what a sequence of polls reports (R84, R86, R90). -/

namespace Sys2Proof.Machine

/-! ## The effect of each operation (R78, R79, R80) -/

theorem exec_bReset {s : State} {b : ButtonState} (hb : s.btn = some b) (tick raw : Bool) (now : Nat) :
    exec (.bReset tick raw now) s
      = .next ((s.mapBtn fun _ => ButtonState.load s.cfg raw now).setOut (.b false)) :=
  withDebouncer_some hb _

theorem exec_bIdle {s : State} {b : ButtonState} (hb : s.btn = some b) (raw : Bool) (now : Nat) :
    exec (.bIdle raw now) s = .next (s.setOut (.b false)) :=
  withDebouncer_some hb _

theorem exec_bPoll {s : State} {b : ButtonState} (hb : s.btn = some b) (raw : Bool) (now : Nat) :
    exec (.bPoll raw now) s
      = .next ((s.mapBtn fun _ => b.poll s.cfg raw now).setOut (.b (b.event s.cfg raw now))) :=
  withDebouncer_some hb _

/-- Where the registers exist, setting them sets the ones found. -/
theorem State.mapBtn_const_btn {s : State} {b : ButtonState} (hb : s.btn = some b) (r : ButtonState) :
    (s.mapBtn fun _ => r).btn = some r := by
  rw [State.mapBtn_btn, hb]; rfl

/-- Setting the registers to what they hold changes nothing. -/
theorem State.mapBtn_const_self {s : State} {b : ButtonState} (hb : s.btn = some b) : (s.mapBtn fun _ => b) = s :=
  State.eq_of_fields rfl rfl ((State.mapBtn_const_btn hb b).trans hb.symm) rfl rfl

section
variable {s : State} {b : ButtonState} {raw : Bool} {now : Nat} (hb : s.btn = some b)
include hb

/-- Stable or noise: only the output is driven, with 0 (R80). -/
theorem exec_bPoll_of_reject
    (hreject : raw = b.previousLevel ∨ elapsed s.cfg now b.lastTransitionTime < s.cfg.debounceTicks) :
    exec (.bPoll raw now) s = .next (s.setOut (.b false)) := by
  rcases b.poll_cases s.cfg raw now with ⟨hne, hwindow, -⟩ | ⟨-, -, hpoll, hevent⟩
  · rcases hreject with heq | hearly
    · exact absurd heq hne
    · omega
  · rw [exec_bPoll hb, hpoll, hevent, State.mapBtn_const_self hb]

/-- Accepted change: the registers are loaded as by a reset, and a pressed level is reported unless held (R80, R85). -/
theorem exec_bPoll_of_accept (hne : raw ≠ b.previousLevel)
    (hwindow : s.cfg.debounceTicks ≤ elapsed s.cfg now b.lastTransitionTime) :
    exec (.bPoll raw now) s
      = .next ((s.mapBtn fun _ => ButtonState.load s.cfg raw now).setOut (.b (pressed s.cfg raw && !b.isHeld))) := by
  rcases b.poll_cases s.cfg raw now with ⟨-, -, -, hpoll, hevent⟩ | ⟨heq | hearly, -⟩
  · rw [exec_bPoll hb, hpoll, hevent]
  · exact absurd heq hne
  · omega

/-- A poll completes, and a differing level is taken over exactly when the window has passed. -/
theorem exists_exec_bPoll_accepted_iff (hne : raw ≠ b.previousLevel) :
    ∃ t b', exec (.bPoll raw now) s = .next t ∧ t.btn = some b'
      ∧ (b'.previousLevel = raw ↔ s.cfg.debounceTicks ≤ elapsed s.cfg now b.lastTransitionTime) := by
  refine ⟨_, b.poll s.cfg raw now, exec_bPoll hb raw now, State.mapBtn_const_btn hb _, ?_⟩
  rw [ButtonState.poll_previousLevel_eq_iff, and_iff_right hne, not_lt]

end

/-! ## The latch (R27, R85, R86) -/

theorem pressed_of_eq {cfg : Config} {raw : Bool} (h : raw = cfg.activeLevel) : pressed cfg raw = true :=
  beq_iff_eq.2 h

theorem pressed_of_ne {cfg : Config} {raw : Bool} (h : raw ≠ cfg.activeLevel) : pressed cfg raw = false :=
  beq_eq_false_iff_ne.2 h

/-- From a released level the mirroring latch is clear (R27). -/
theorem ButtonState.isHeld_of_released {cfg : Config} {b : ButtonState} (hinv : b.Inv cfg)
    (hreleased : b.previousLevel ≠ cfg.activeLevel) : b.isHeld = false :=
  hinv.2.trans (pressed_of_ne hreleased)

/-- At a differing level the mirroring latch is clear before a press, so its test is redundant (R87). -/
theorem ButtonState.press_of_inv {cfg : Config} {b : ButtonState} (hinv : b.Inv cfg) {raw : Bool}
    (hne : raw ≠ b.previousLevel) : (pressed cfg raw && !b.isHeld) = pressed cfg raw := by
  by_cases hactive : raw = cfg.activeLevel
  · rw [ButtonState.isHeld_of_released hinv (hactive ▸ hne.symm), Bool.not_false, Bool.and_true]
  · rw [pressed_of_ne hactive, Bool.false_and]

/-- Where the latch mirrors the level, a poll reports the accepted changes to the pressed level. -/
theorem ButtonState.event_of_inv {cfg : Config} {b : ButtonState} (hinv : b.Inv cfg) (raw : Bool) (now : Nat) :
    b.event cfg raw now = (accepts cfg b raw now && pressed cfg raw) := by
  rcases b.poll_cases cfg raw now with ⟨hne, -, haccept, -, hevent⟩ | ⟨-, hreject, -, hevent⟩
  · rw [hevent, haccept, Bool.true_and, ButtonState.press_of_inv hinv hne]
  · rw [hevent, hreject, Bool.false_and]

/-- A press is reported exactly when the latch rises, from any registers. -/
theorem ButtonState.event_eq_rise (cfg : Config) (b : ButtonState) (raw : Bool) (now : Nat) :
    b.event cfg raw now = ((b.poll cfg raw now).isHeld && !b.isHeld) := by
  rcases b.poll_cases cfg raw now with ⟨-, -, -, hpoll, hevent⟩ | ⟨-, -, hpoll, hevent⟩
  · rw [hevent, hpoll]; rfl
  · rw [hevent, hpoll, Bool.and_not_self]

/-- A latch that mirrors the level says whether the debounced level is pressed. -/
theorem State.pressedLevel_of_inv {s : State} {b : ButtonState} (hb : s.btn = some b) (hinv : b.Inv s.cfg) :
    s.pressedLevel = b.isHeld := by
  rw [State.pressedLevel, hb, hinv.2]; rfl

/-- Every operation but the two loads reports a press exactly when it makes the latch rise. -/
theorem after_press_eq_rise {s : State} {b : ButtonState} {i : Instr} (hb : s.btn = some b)
    (hload : i.loadsButton = false) :
    ∃ b', (after i s).btn = some b' ∧ (after i s).out.press = (b'.isHeld && !b.isHeld) := by
  cases i
  case bReset | reset => cases hload
  case bPoll raw now | poll _ _ raw now =>
    refine ⟨b.poll s.cfg raw now, ?_, ?_⟩
    · rw [after_btn, hb]; rfl
    · rw [after_out, hb]; exact b.event_eq_rise s.cfg raw now
  all_goals exact ⟨b, hb, (Bool.and_not_self _).symm⟩

/-- An instance with a button has every module. -/
theorem State.hasModule_of_hasButton {s : State} (h : s.cfg.hasButton = true) (f : Format) : s.hasModule f = true := by
  cases f
  case b => exact h
  all_goals rfl

/-- A latch that rises or falls is accounted for. -/
theorem rise_add_eq_fall_add (held held' : Bool) :
    (if held' && !held then 1 else 0) + held.toNat = (held && !held').toNat + held'.toNat := by
  revert held held'; decide

/-- Settles O34: presses are the rises of the latch and accepted releases its falls, summed over the run. -/
theorem pressesAlternateWithReleases : Obligations.PressesAlternateWithReleases := by
  intro ops
  induction ops with
  | nil => exact fun s b hb hinv _ => ⟨[], s, b, rfl, hb, hinv, rfl⟩
  | cons i rest ih =>
    intro s b hb hinv hops
    obtain ⟨⟨hwf, hload⟩, hrest⟩ := List.forall_mem_cons.1 hops
    obtain ⟨b1, hb1, hpress⟩ := after_press_eq_rise hb hload
    have hinv1 : b1.Inv s.cfg := btnAfter_inv hwf (fun _ h => Option.some.inj (hb.symm.trans h) ▸ hinv) hb1
    obtain ⟨outs, t, b', hrun, hb', hinv', hcount⟩ := ih (after i s) b1 hb1 hinv1 hrest
    have hmodule := State.hasModule_of_hasButton (State.hasButton_of_btn hb) i.format
    refine ⟨(after i s).out :: outs, t, b', ?_, hb', hinv', ?_⟩
    · rw [runOps_cons i rest s hmodule, hrun]; rfl
    · have hstep := rise_add_eq_fall_add b.isHeld b1.isHeld
      rw [List.countP_cons, hpress, acceptedReleases_cons i rest s hmodule, State.pressedLevel_of_inv hb hinv,
        State.pressedLevel_of_inv hb1 hinv1]
      omega

/-! ## The elapsed time (R81, R82, R88) -/

/-- The elapsed time as a remainder of integers. -/
theorem elapsed_eq_emod (cfg : Config) (now : Nat) {last : Nat} (hlast : last < 2 ^ cfg.timeW) :
    (elapsed cfg now last : Int) = ((now : Int) - last) % 2 ^ cfg.timeW := by
  rw [elapsed_eq_mod cfg hlast, Int.natCast_mod, Nat.cast_add, Nat.cast_sub hlast.le, Nat.cast_pow, Nat.cast_ofNat,
    add_sub_left_comm, Int.add_emod_left]

/-- However often the clock wraps, a reading `later` counts after `last` gives the residue of `later`. -/
theorem elapsed_of_later (cfg : Config) (last later : Nat) :
    elapsed cfg ((last + later) % 2 ^ cfg.timeW) last = later % 2 ^ cfg.timeW := by
  have hnow : BitVec.ofNat cfg.timeW ((last + later) % 2 ^ cfg.timeW)
      = BitVec.ofNat cfg.timeW later + BitVec.ofNat cfg.timeW last := by
    apply BitVec.eq_of_toNat_eq
    simp [Nat.add_comm]
  rw [elapsed, hnow, BitVec.add_sub_cancel, BitVec.toNat_ofNat]

theorem elapsed_of_later_lt (cfg : Config) (last : Nat) {later : Nat} (h : later < 2 ^ cfg.timeW) :
    elapsed cfg ((last + later) % 2 ^ cfg.timeW) last = later := by
  rw [elapsed_of_later, Nat.mod_eq_of_lt h]

/-- A poll changes the level exactly when the raw one differs and the window has passed (R80). -/
theorem ButtonState.poll_previousLevel_ne_iff (cfg : Config) (b : ButtonState) (raw : Bool) (now : Nat) :
    (b.poll cfg raw now).previousLevel ≠ b.previousLevel
      ↔ raw ≠ b.previousLevel ∧ cfg.debounceTicks ≤ elapsed cfg now b.lastTransitionTime := by
  rcases b.poll_cases cfg raw now with ⟨hne, hwindow, -, hpoll, -⟩ | ⟨hreject, -, hpoll, -⟩
  · rw [hpoll]
    exact iff_of_true hne ⟨hne, hwindow⟩
  · rw [hpoll]
    refine iff_of_false (fun h => h rfl) fun ⟨hne, hwindow⟩ => ?_
    rcases hreject with heq | hearly
    · exact hne heq
    · omega

/-- Settles O30: the elapsed time is the residue, and it decides. -/
theorem elapsedTimeIsModular : Obligations.ElapsedTimeIsModular := by
  intro s b raw now hb hnow hlast
  refine ⟨elapsed_eq_emod s.cfg now hlast, _, b.poll s.cfg raw now, exec_bPoll hb raw now,
    State.mapBtn_const_btn hb _, ?_⟩
  rw [← elapsed_eq_emod s.cfg now hlast, Nat.cast_le]
  exact b.poll_previousLevel_ne_iff s.cfg raw now

/-- Settles O31: the two readings are the window and one count less, modulo the clock. -/
theorem windowBoundary : Obligations.WindowBoundary := by
  intro s b raw hb _ hne
  have hfits := s.cfg.debounce_fits
  constructor
  · obtain ⟨t, b', hexec, hb', haccepted⟩ := exists_exec_bPoll_accepted_iff hb hne
    exact ⟨t, b', hexec, hb', haccepted.2 (elapsed_of_later_lt s.cfg _ hfits).ge⟩
  · intro hpos
    exact exec_bPoll_of_reject hb (.inr (by rw [elapsed_of_later_lt s.cfg _ (by omega)]; omega))

/-- Settles O32: the residue of `k` wraps plus `e` is `e`, and the poll decides by it. -/
theorem wrappedClockReadsTheResidue : Obligations.WrappedClockReadsTheResidue := by
  intro s b raw k e hb _ he hne
  have helapsed : elapsed s.cfg ((b.lastTransitionTime + (k * 2 ^ s.cfg.timeW + e)) % 2 ^ s.cfg.timeW)
      b.lastTransitionTime = e := by
    rw [elapsed_of_later, Nat.mul_add_mod_self_right, Nat.mod_eq_of_lt he]
  obtain ⟨t, b', hexec, hb', haccepted⟩ := exists_exec_bPoll_accepted_iff hb hne
  exact ⟨t, b', hexec, hb', helapsed ▸ haccepted⟩

/-! ## The words and the whole effect of each operation (R78, R79, R80, R85, R87) -/

/-- Settles O27: the word has `rst` set, and the effect is the load of the inputs. -/
theorem bResetLoadsLevelTimeAndLatch : Obligations.BResetLoadsLevelTimeAndLatch := by
  intro s tick raw now hbutton
  obtain ⟨b, hb⟩ := State.exists_btn hbutton
  refine ⟨fun hnow => ?word, exec_bReset hb tick raw now, fun t h => ?registers⟩
  case word => simpa [wordB_eq_sum] using decode_wordB s.cfg true tick raw hnow
  case registers =>
    cases h.symm.trans (exec_bReset hb tick raw now)
    exact State.mapBtn_const_btn hb _

/-- Settles O28: the word has both control bits 0, and only the output is driven. -/
theorem bIdleChangesNothing : Obligations.BIdleChangesNothing := by
  intro s raw now hbutton
  obtain ⟨b, hb⟩ := State.exists_btn hbutton
  refine ⟨fun hnow => ?word, exec_bIdle hb raw now⟩
  case word => simpa [wordB_eq_sum] using decode_wordB s.cfg false false raw hnow

/-- Settles O29: the branches are the stable level, the noise, and the accepted change by its level and latch. -/
theorem bPollDebounces : Obligations.BPollDebounces := by
  intro s b raw now hb elapsed accept
  refine ⟨fun hnow => ?word, ?effect⟩
  case word => simpa [wordB_eq_sum] using decode_wordB s.cfg false true raw hnow
  case effect =>
    by_cases hstable : raw = b.previousLevel
    · rw [if_pos hstable]
      exact exec_bPoll_of_reject hb (.inl hstable)
    rw [if_neg hstable]
    by_cases hnoise : elapsed < s.cfg.debounceTicks
    · rw [if_pos hnoise]
      exact exec_bPoll_of_reject hb (.inr hnoise)
    rw [if_neg hnoise, exec_bPoll_of_accept hb hstable (not_lt.1 hnoise), ButtonState.load]
    by_cases hactive : raw = s.cfg.activeLevel
    · rw [if_pos hactive, pressed_of_eq hactive]
      cases b.isHeld <;> rfl
    · rw [if_neg hactive, pressed_of_ne hactive]
      rfl

/-- Settles O33: the accepted change with the latch set; from a released level a mirroring latch is clear. -/
theorem pressedWhileHeldReportsNothing : Obligations.PressedWhileHeldReportsNothing := by
  intro s b now hb hreleased
  refine ⟨fun hheld hwindow => ?accept, fun hinv => ButtonState.isHeld_of_released hinv hreleased⟩
  case accept =>
    rw [exec_bPoll_of_accept hb hreleased.symm hwindow, ButtonState.load, hheld, pressed_of_eq rfl]
    rfl

/-- Settles O35: one case per operation of the format; a poll that is due is an accepted one. -/
theorem pressClosedForm : Obligations.PressClosedForm := by
  intro s b rst tick raw now hb hinv hnow due
  rw [← wordB_eq_sum, decode_wordB s.cfg rst tick raw hnow]
  cases rst with
  | true =>
    have hnotDue : due = false := by simp [due]
    exact ⟨_, _, rfl, exec_bReset hb tick raw now, by rw [hnotDue]; rfl, State.mapBtn_const_btn hb _⟩
  | false =>
    cases tick with
    | true =>
      exact ⟨_, _, rfl, exec_bPoll hb raw now, congrArg Output.b (b.event_of_inv hinv raw now),
        State.mapBtn_const_btn hb _⟩
    | false => exact ⟨_, _, rfl, exec_bIdle hb raw now, rfl, hb⟩

/-! ## Sequences of polls (R84, R90) -/

/-- A run whose first operation leads to `t`. -/
theorem runOps_cons_of_exec {i : Instr} {s t : State} (h : exec i s = .next t) (rest : List Instr) :
    runOps (i :: rest) s = (runOps rest t).map fun r => (t.out :: r.1, r.2) := by
  rw [runOps, h]

/-- Polls that are all stable or noise complete, report nothing and leave all but the output. -/
theorem runOps_bPolls_rejected (polls : List (Bool × Nat)) {s : State} {b : ButtonState} (hb : s.btn = some b)
    (h : ∀ p ∈ polls, p.1 = b.previousLevel ∨ elapsed s.cfg p.2 b.lastTransitionTime < s.cfg.debounceTicks) :
    ∃ o, runOps (polls.map fun p => .bPoll p.1 p.2) s = some (polls.map fun _ => .b false, s.setOut o) := by
  induction polls generalizing s with
  | nil => exact ⟨s.out, rfl⟩
  | cons p rest ih =>
    obtain ⟨hfirst, hrest⟩ := List.forall_mem_cons.1 h
    obtain ⟨o, hrun⟩ := ih (s := s.setOut (.b false)) hb hrest
    exact ⟨o, by rw [List.map_cons, runOps_cons_of_exec (exec_bPoll_of_reject hb hfirst), hrun]; rfl⟩

/-- The same of polls of one level. -/
theorem runOps_bPolls_level_rejected (times : List Nat) {s : State} {b : ButtonState} {raw : Bool} (hb : s.btn = some b)
    (h : ∀ now ∈ times, raw = b.previousLevel ∨ elapsed s.cfg now b.lastTransitionTime < s.cfg.debounceTicks) :
    ∃ o, runOps (times.map (.bPoll raw)) s = some (times.map fun _ => .b false, s.setOut o) := by
  simpa [Function.comp_def] using runOps_bPolls_rejected (times.map (raw, ·)) hb (List.forall_mem_map.2 h)

/-- A differing level polled past the window is accepted there, and every later poll of it is stable. -/
theorem runOps_bPolls_level_accepted (first : Nat) (late : List Nat) {s : State} {b : ButtonState} {raw : Bool}
    (hb : s.btn = some b) (hinv : b.Inv s.cfg) (hne : raw ≠ b.previousLevel)
    (hwindow : s.cfg.debounceTicks ≤ elapsed s.cfg first b.lastTransitionTime) :
    ∃ o, runOps ((first :: late).map (.bPoll raw)) s
      = some (.b (pressed s.cfg raw) :: late.map fun _ => .b false,
          (s.mapBtn fun _ => ButtonState.load s.cfg raw first).setOut o) := by
  have haccept := exec_bPoll_of_accept hb hne hwindow
  rw [ButtonState.press_of_inv hinv hne] at haccept
  obtain ⟨o, hrun⟩ := runOps_bPolls_level_rejected late (raw := raw)
    (s := (s.mapBtn fun _ => ButtonState.load s.cfg raw first).setOut (.b (pressed s.cfg raw)))
    (State.mapBtn_const_btn hb _) fun _ _ => .inl rfl
  exact ⟨o, by rw [List.map_cons, runOps_cons_of_exec haccept, hrun]; rfl⟩

/-- Settles O36: each sample is stable or comes inside the window. -/
theorem chatterInsideTheWindowIsIgnored : Obligations.ChatterInsideTheWindowIsIgnored := by
  intro s b polls hb hinside
  obtain ⟨o, hrun⟩ := runOps_bPolls_rejected polls hb fun p hp => or_iff_not_imp_left.2 (hinside p hp)
  exact ⟨_, _, hrun, rfl, hb, rfl⟩

/-- Settles O37: the early polls are noise, the first one past the window is accepted, the later ones are stable. -/
theorem heldLevelReportsOnce : Obligations.HeldLevelReportsOnce := by
  refine ⟨fun s b times hb => ?stable, fun s b raw early first late hb hinv hne hearly hwindow => ?held⟩
  case stable =>
    obtain ⟨o, hrun⟩ := runOps_bPolls_level_rejected times hb fun _ _ => .inl rfl
    exact ⟨_, _, hrun, by simp, hb⟩
  case held =>
    obtain ⟨o, hrun⟩ := runOps_bPolls_level_rejected early hb fun now h => .inr (hearly now h)
    obtain ⟨o', hrun'⟩ := runOps_bPolls_level_accepted first late (s := s.setOut o) hb hinv hne hwindow
    refine ⟨_, ((s.setOut o).mapBtn fun _ => ButtonState.load s.cfg raw first).setOut o', ?run, rfl,
      State.mapBtn_const_btn (s := s.setOut o) hb _⟩
    rw [List.map_append, runOps_append, hrun, Option.bind_some, hrun']
    rfl

end Sys2Proof.Machine
end

section
/-! SUPPORT. The statements of the family 43_encoder_controller: the operations of the controller (R94 to R96, R98,
R100), its output words (R54, R99), and the controller as its two modules side by side (R92). -/

namespace Sys2Proof.Machine

/-! ## What a cycle of the controller is to its modules (R92)

In each of the three classes of R44 the controller does to the accumulator's registers what the accumulator does, and to
the debouncer's what the debouncer does, whatever the other half holds. -/

@[simp] theorem Cycle.controller_format (y : Cycle) : y.controller.format = .c := by
  unfold Cycle.controller
  split_ifs <;> rfl

@[simp] theorem Cycle.accumulator_format (y : Cycle) : y.accumulator.format = .d := by
  unfold Cycle.accumulator
  split_ifs <;> rfl

@[simp] theorem Cycle.debouncer_format (y : Cycle) : y.debouncer.format = .b := by
  unfold Cycle.debouncer
  split_ifs <;> rfl

/-- The registers and the event of the rotation half. -/
theorem Cycle.controller_rotation (y : Cycle) (cfg : Config) (e : EncoderState) (btn btn' : Option ButtonState) :
    encAfter cfg e y.controller = encAfter cfg e y.accumulator
    ∧ (outDuring cfg e btn y.controller).detent = (outDuring cfg e btn' y.accumulator).detent := by
  unfold Cycle.controller Cycle.accumulator
  split_ifs <;> exact ⟨rfl, rfl⟩

/-- The registers and the event of the button half. -/
theorem Cycle.controller_button (y : Cycle) (cfg : Config) (e e' : EncoderState) (btn : Option ButtonState) :
    btnAfter cfg btn y.controller = btnAfter cfg btn y.debouncer
    ∧ (outDuring cfg e btn y.controller).press = (outDuring cfg e' btn y.debouncer).press := by
  unfold Cycle.controller Cycle.debouncer
  split_ifs <;> exact ⟨rfl, rfl⟩

/-- Two states with the same rotation half: what the accumulator's operations read. -/
def SameRotation (s d : State) : Prop := s.cfg = d.cfg ∧ s.enc = d.enc

/-- Two states with the same button half: what the debouncer's operations read. -/
def SameButton (s p : State) : Prop := s.cfg = p.cfg ∧ s.btn = p.btn

/-- The commuting step of the rotation half. -/
theorem SameRotation.after_cycle {s d : State} (h : SameRotation s d) (y : Cycle) :
    SameRotation (after y.controller s) (after y.accumulator d)
    ∧ (after y.controller s).out.detent = (after y.accumulator d).out.detent := by
  obtain ⟨hcfg, henc⟩ := h
  obtain ⟨hregs, hevent⟩ := y.controller_rotation d.cfg d.enc s.btn d.btn
  simp only [SameRotation, after_cfg, after_enc, after_out, hcfg, henc, true_and]
  exact ⟨hregs, hevent⟩

/-- The commuting step of the button half. -/
theorem SameButton.after_cycle {s p : State} (h : SameButton s p) (y : Cycle) :
    SameButton (after y.controller s) (after y.debouncer p)
    ∧ (after y.controller s).out.press = (after y.debouncer p).out.press := by
  obtain ⟨hcfg, hbtn⟩ := h
  obtain ⟨hregs, hevent⟩ := y.controller_button p.cfg s.enc p.enc p.btn
  simp only [SameButton, after_cfg, after_btn, after_out, hcfg, hbtn, true_and]
  exact ⟨hregs, hevent⟩

/-! ## Runs in lock step -/

/-- Two machines driven by the same cycles, each through operations of a module it has: a relation that every cycle
keeps holds between the last states, and a port that agrees in every cycle agrees along the runs. -/
theorem runOps_lockStep {α : Type} {R : State → State → Prop} {op op' : Cycle → Instr} {port : Output → α}
    (hstep : ∀ {s d}, R s d → ∀ y, R (after (op y) s) (after (op' y) d)
      ∧ port (after (op y) s).out = port (after (op' y) d).out)
    (cycles : List Cycle) {s d : State} (h : R s d) (hop : ∀ y, s.hasModule (op y).format = true)
    (hop' : ∀ y, d.hasModule (op' y).format = true) :
    ∃ outs outs' t u, runOps (cycles.map op) s = some (outs, t) ∧ runOps (cycles.map op') d = some (outs', u)
      ∧ R t u ∧ outs.map port = outs'.map port := by
  induction cycles generalizing s d with
  | nil => exact ⟨[], [], s, d, rfl, rfl, h, rfl⟩
  | cons y rest ih =>
    obtain ⟨hnext, hport⟩ := hstep h y
    obtain ⟨outs, outs', t, u, hrun, hrun', hlast, hports⟩ := ih hnext
      (fun z => (after_hasModule _ s _).trans (hop z)) (fun z => (after_hasModule _ d _).trans (hop' z))
    refine ⟨(after (op y) s).out :: outs, (after (op' y) d).out :: outs', t, u, ?_, ?_, hlast, ?_⟩
    · rw [List.map_cons, runOps_cons _ _ s (hop y), hrun]; rfl
    · rw [List.map_cons, runOps_cons _ _ d (hop' y), hrun']; rfl
    · rw [List.map_cons, List.map_cons, hport, hports]

/-- The controller and an accumulator run in lock step. -/
theorem exists_runOps_accumulator (cycles : List Cycle) (s : State) :
    ∃ outs outsD t tD, runOps (cycles.map Cycle.controller) s = some (outs, t)
      ∧ runOps (cycles.map Cycle.accumulator) s = some (outsD, tD)
      ∧ SameRotation t tD ∧ outs.map Output.detent = outsD.map Output.detent :=
  runOps_lockStep SameRotation.after_cycle cycles ⟨rfl, rfl⟩ (fun y => by rw [y.controller_format]; rfl)
    fun y => by rw [y.accumulator_format]; rfl

/-- With a button, the controller and a debouncer run in lock step. -/
theorem exists_runOps_debouncer (cycles : List Cycle) {s : State} (hbutton : s.cfg.hasButton = true) :
    ∃ outs outsB t tB, runOps (cycles.map Cycle.controller) s = some (outs, t)
      ∧ runOps (cycles.map Cycle.debouncer) s = some (outsB, tB)
      ∧ SameButton t tB ∧ outs.map Output.press = outsB.map Output.press :=
  runOps_lockStep SameButton.after_cycle cycles ⟨rfl, rfl⟩ (fun y => by rw [y.controller_format]; rfl)
    fun y => by rw [y.debouncer_format]; exact hbutton

/-! ## An instance without a button (R100) -/

/-- Without button registers no operation reports a press. -/
theorem outDuring_press_none (cfg : Config) (e : EncoderState) (i : Instr) :
    (outDuring cfg e none i).press = false := by
  cases i <;> rfl

section
variable {s : State} (hbare : s.cfg.hasButton = false)
include hbare

theorem after_press_of_bare (i : Instr) : (after i s).out.press = false := by
  rw [after_out, State.btn_eq_none hbare, outDuring_press_none]

theorem after_btn_of_bare (i : Instr) : (after i s).btn = s.btn := by
  rw [after_btn, State.btn_eq_none hbare, btnAfter_none]

/-- A run of any operations without a button ends without button registers and reports no press. -/
theorem runOps_of_bare {ops : List Instr} {outs : List Output} {t : State} (hrun : runOps ops s = some (outs, t)) :
    t.btn = none ∧ ∀ o ∈ outs, o.press = false := by
  induction ops generalizing s outs with
  | nil =>
    cases hrun
    exact ⟨State.btn_eq_none hbare, by simp⟩
  | cons i rest ih =>
    cases hmodule : s.hasModule i.format with
    | false => cases (runOps_cons_absent i rest s hmodule).symm.trans hrun
    | true =>
      rw [runOps_cons i rest s hmodule, Option.map_eq_some_iff] at hrun
      obtain ⟨⟨outs', t'⟩, hrest, hcons⟩ := hrun
      cases hcons
      obtain ⟨hnone, hquiet⟩ := ih (s := after i s) hbare hrest
      exact ⟨hnone, List.forall_mem_cons.2 ⟨after_press_of_bare hbare i, hquiet⟩⟩

end

/-- Settles O42: the controller runs in lock step with each of its modules, and its own run is one. -/
theorem controllerIsItsTwoModules : Obligations.ControllerIsItsTwoModules := by
  intro cycles s
  obtain ⟨outs, outsD, t, tD, hrun, hrunD, ⟨-, henc⟩, hdetent⟩ := exists_runOps_accumulator cycles s
  refine ⟨outs, outsD, t, tD, hrun, hrunD, henc, hdetent, fun hbutton => ?_, fun hbare => runOps_of_bare hbare hrun⟩
  obtain ⟨outs', outsB, t', tB, hrun', hrunB, ⟨-, hbtn⟩, hpress⟩ := exists_runOps_debouncer cycles hbutton
  cases hrun.symm.trans hrun'
  exact ⟨outsB, tB, hrunB, hbtn, hpress⟩

/-! ## The output words (R54, R99) -/

/-- The words of the controller's ports, given that `detent` is no `0b10`. -/
theorem Output.word_c_mem {detent : Code2} (h : detent ≠ 0b10) (press : Bool) :
    (Output.c detent press).word ∈ [0, 1, 2, 3, 6, 7] := by
  revert detent press; decide

/-- The reference instance, reset and released at time 0, with the accumulator turned to these registers. -/
def turned (sample : Code) (count : Int) : State :=
  State.reset.setEnc { previousSample := sample, accumulatedSteps := count }

theorem turned_inv (sample : Code) {count : Int} (h : |count| < 4) : (turned sample count).Inv := by
  obtain ⟨-, hbtn, hout⟩ := resetStateMeetsTheInvariant.1
  exact ⟨abs_lt.1 h, hbtn, hout⟩

/-- A word that a poll of `00` at the end of the window drives from a turned state. -/
theorem exists_poll_of_turned (sample : Code) (count : Int) (hcount : |count| < 4) (btn : Bool) {v : Nat}
    (hword : (after (.poll false false btn 20000) (turned sample count)).out.word = v) :
    ∃ (s t : State) (a b btn : Bool) (now : Nat),
      s.Inv ∧ exec (.poll a b btn now) s = .next t ∧ t.out.word = v :=
  ⟨turned sample count, _, false, false, btn, 20000, turned_inv sample hcount, exec_eq _ _ rfl, hword⟩

/-- Settles O43: no port carries `0b10`; the six words are no step, the fourth step forward and the fourth step back,
each with the button released and pressed. -/
theorem outputWordsOfAPoll : Obligations.OutputWordsOfAPoll := by
  refine ⟨fun s t a b btn now h => ?range, ?attained, fun i s t h => ?ports⟩
  case range =>
    obtain ⟨rfl, -⟩ := eq_after_of_exec h
    exact Output.word_c_mem (after_out_inv (.poll a b btn now) s) _
  case attained =>
    simp only [List.forall_mem_cons]
    refine ⟨?_, ?_, ?_, ?_, ?_, ?_, by simp⟩
    · exact exists_poll_of_turned 0b00 0 (by decide) true (by decide)
    · exact exists_poll_of_turned 0b00 0 (by decide) false (by decide)
    · exact exists_poll_of_turned 0b10 3 (by decide) true (by decide)
    · exact exists_poll_of_turned 0b10 3 (by decide) false (by decide)
    · exact exists_poll_of_turned 0b01 (-3) (by decide) true (by decide)
    · exact exists_poll_of_turned 0b01 (-3) (by decide) false (by decide)
  case ports =>
    obtain ⟨rfl, -⟩ := eq_after_of_exec h
    exact after_out_inv i s

/-! ## RESET (R94, R118) -/

/-- RESET leads to the state after a reset, with the pending words kept. -/
theorem exec_reset (tick a b btn : Bool) (now : Nat) (s : State) :
    exec (.reset tick a b btn now) s = .next ((State.afterReset s.cfg a b btn now).setInputs s.inputs) := by
  rw [exec_eq (.reset tick a b btn now) s rfl]
  refine next_eq_of_fields rfl rfl ?_ rfl rfl
  rw [State.setInputs_btn, State.afterReset_btn]
  cases hbutton : s.cfg.hasButton with
  | false => rw [after_btn, State.btn_eq_none hbutton]; rfl
  | true =>
    obtain ⟨r, hr⟩ := State.exists_btn hbutton
    rw [after_btn, hr]; rfl

/-- Settles O38: the word has `rst` set, and the next state is the one after a reset. -/
theorem resetLoadsEveryRegister : Obligations.ResetLoadsEveryRegister := by
  refine fun s tick a b btn now => ⟨fun hnow => ?word, _, exec_reset tick a b btn now s, rfl, fun hbutton => ?present,
    fun hbare => ?absent, rfl, rfl, rfl⟩
  case word => simpa [wordC_eq_sum] using decode_wordC s.cfg true tick a b btn hnow
  case present => rw [State.setInputs_btn, State.afterReset_btn, if_pos hbutton]
  case absent => exact State.btn_eq_none hbare

/-- Settles O47: `State.reset` is the state after this reset. -/
theorem resetStateIsTheWorkedExample : Obligations.ResetStateIsTheWorkedExample := by
  refine ⟨fun s hcfg => ?effect, rfl, rfl, rfl, rfl⟩
  case effect =>
    rw [exec_reset, hcfg]
    rfl

/-! ## POLL and IDLE (R95, R96, R98) -/

/-- Settles O39: the word has only `tick` set, and each half of the next state is that of the half's own poll. -/
theorem pollIsBothHalves : Obligations.PollIsBothHalves := by
  refine fun s a b btn now => ⟨fun hnow => ?word, _, _, exec_eq _ s rfl, exec_eq _ s rfl, rfl, rfl, rfl,
    fun hbutton => ⟨_, exec_eq _ s hbutton, rfl, rfl⟩, fun hbare => ⟨?registers, ?outputs⟩⟩
  case word => simpa [wordC_eq_sum] using decode_wordC s.cfg false true a b btn hnow
  case registers => exact State.btn_eq_none hbare
  case outputs => exact congrArg (Output.c _) (after_press_of_bare hbare (.poll a b btn now))

/-- Settles O40: the word has both control bits 0, and only the outputs are driven. -/
theorem idleChangesNothing : Obligations.IdleChangesNothing := by
  refine fun s a b btn now => ⟨fun hnow => ?word, exec_eq (.idle a b btn now) s rfl⟩
  case word => simpa [wordC_eq_sum] using decode_wordC s.cfg false false a b btn hnow

/-- The run of two operations whose modules the instance has. -/
theorem runOps_pair {i j : Instr} {s : State} (hi : s.hasModule i.format = true) (hj : s.hasModule j.format = true) :
    runOps [i, j] s = some ([(after i s).out, (after j (after i s)).out], after j (after i s)) := by
  rw [runOps_cons i _ s hi, runOps_cons j _ _ ((after_hasModule i s _).trans hj)]
  rfl

/-- Settles O41: each half of the next state is a function of that half of the state and of its own inputs, and the
other half's poll leaves it. -/
theorem halvesOfAPollCommute : Obligations.HalvesOfAPollCommute := by
  refine ⟨fun s a b btn now hbutton => ?orders, fun s1 s2 t1 t2 a b btn1 btn2 now1 now2 hcfg henc h1 h2 => ?rotation,
    fun s1 s2 t1 t2 a1 b1 a2 b2 btn now hcfg hbtn h1 h2 => ?button⟩
  case orders =>
    exact ⟨_, _, _, _, _, exec_eq _ s rfl, runOps_pair rfl hbutton, runOps_pair hbutton rfl,
      rfl, rfl, rfl, rfl, rfl, rfl⟩
  case rotation =>
    obtain ⟨rfl, -⟩ := eq_after_of_exec h1
    obtain ⟨rfl, -⟩ := eq_after_of_exec h2
    simp only [after_out, after_enc, outDuring, encAfter, Output.detent, hcfg, henc, and_self]
  case button =>
    obtain ⟨rfl, -⟩ := eq_after_of_exec h1
    obtain ⟨rfl, -⟩ := eq_after_of_exec h2
    simp only [after_out, after_btn, outDuring, btnAfter, Output.press, hcfg, hbtn, and_self]

/-! ## RESET, POLL and IDLE without a button (R100) -/

/-- Settles O44: there are no button registers to write, and no press to report. -/
theorem withoutAButtonOnlyTheRotationHalf : Obligations.WithoutAButtonOnlyTheRotationHalf := by
  intro s a b btn now hbare
  refine ⟨State.btn_eq_none hbare, fun tick => ?reset, ⟨_, exec_eq _ s rfl, ?poll⟩,
    exec_eq (.idle a b btn now) s rfl⟩
  case reset =>
    rw [exec_eq (.reset tick a b btn now) s rfl]
    exact next_eq_of_fields rfl rfl (after_btn_of_bare hbare _) rfl rfl
  case poll =>
    rw [exec_eq (.poll a b btn now) s rfl]
    exact next_eq_of_fields rfl rfl (after_btn_of_bare hbare _) rfl
      (congrArg (Output.c _) (after_press_of_bare hbare (.poll a b btn now)))

end Sys2Proof.Machine
end

section
/-! SUPPORT. The statement of the family 60_exceptions: every operation of a module the instance has completes, and there
is no fault (R104). -/

namespace Sys2Proof.Machine

/-- Settles O10: an operation whose module is there has the one next state of `exec_eq`, and `Fault` has no
constructor. -/
theorem noOperationRaises : Obligations.NoOperationRaises := by
  refine ⟨fun i s hmodule => ?completes, fun fault => ?noFault⟩
  case completes => exact ⟨after i s, exec_eq i s hmodule⟩
  case noFault => cases fault

end Sys2Proof.Machine
end

section
/-! SUPPORT. The statement of the family 70_reset_and_hazards: a RESET forgets whatever the registers held, and of several
resets the last one counts (R118). -/

namespace Sys2Proof.Machine

/-- The state a RESET with the inputs of the cycle `y` leads to from `s` (R118). -/
def State.resetBy (s : State) (y : Cycle) : State :=
  (State.afterReset s.cfg y.a y.b y.btn y.now).setInputs s.inputs

/-- A second reset leaves no trace of the first: what a RESET keeps is the parameters and the pending words. -/
@[simp] theorem State.resetBy_resetBy (s : State) (x y : Cycle) : (s.resetBy x).resetBy y = s.resetBy y := rfl

/-- The controller's operation in a cycle with `rst = 1` is the RESET of its inputs (R44). -/
theorem Cycle.exec_controller_of_rst {y : Cycle} (h : y.rst = true) (s : State) :
    exec y.controller s = .next (s.resetBy y) := by
  rw [Cycle.controller, if_pos h, exec_reset, State.resetBy]

/-- A run of reset cycles drives zeros and ends where its last cycle alone would. -/
theorem runOps_resets {first : List Cycle} {last : Cycle} (hfirst : ∀ y ∈ first, y.rst = true) (hlast : last.rst = true)
    (s : State) :
    runOps ((first ++ [last]).map Cycle.controller) s
      = some ((first ++ [last]).map fun _ => .c 0b00 false, s.resetBy last) := by
  induction first generalizing s with
  | nil => exact runOps_cons_of_exec (Cycle.exec_controller_of_rst hlast s) []
  | cons y rest ih =>
    obtain ⟨hy, hrest⟩ := List.forall_mem_cons.1 hfirst
    rw [List.cons_append, List.map_cons, runOps_cons_of_exec (Cycle.exec_controller_of_rst hy s), ih hrest,
      State.resetBy_resetBy]
    rfl

/-- Settles O46: one RESET by its effect, several by `runOps_resets`. -/
theorem resetForgetsThePast : Obligations.ResetForgetsThePast := by
  refine ⟨fun s tick a b btn now => exec_reset tick a b btn now s,
    fun s first last hfirst hlast => ⟨_, runOps_resets hfirst hlast s, ?zeros⟩⟩
  case zeros => exact List.forall_mem_map.2 fun _ _ => rfl

end Sys2Proof.Machine
end
